-- ==== Sys2Proof/Word.lean ====
section
/-! DEFINITION. The unsigned fixed-width values of the machine: instruction words and their fields (R9, R11, R13). -/

namespace Sys2Proof

/-- One element of the program store, one instruction: a 16-bit unsigned integer (R41, R60). -/
abbrev Word := BitVec 16

/-- An opcode field or an operand field of a word: 4 bits, unsigned (R13, R61). -/
abbrev Nibble := BitVec 4

/-- The immediate field of a word: 8 bits, unsigned (R13, R63). -/
abbrev Immediate := BitVec 8

end Sys2Proof
end

