-- ==== Sys2Proof/Syntax.lean ====
section
/-! DEFINITION. The instructions, one constructor for each row of spec/opcode_table.json, and the lines of assembly text (R70). -/

namespace Sys2Proof

/-- An instruction, as the evaluator sees it (R64, R65).
Operand fields keep all 4 bits, because a register index of 4 to 15 is representable and has an effect (R23, R152).
`halt` has no operands: its low 12 bits are ignored and its one canonical word is 0x0000 (R66, R72, R100).
An unrecognized word keeps its ignored low 12 bits, the table's field `ignored` (assumption 11). -/
inductive Instr where
  | halt
  | loadi (d : Nibble) (imm : Immediate)
  | add (d a b : Nibble)
  | unrec3 (ignored : BitVec 12)
  | unrec4 (ignored : BitVec 12)
  | unrec5 (ignored : BitVec 12)
  | unrec6 (ignored : BitVec 12)
  | unrec7 (ignored : BitVec 12)
  | unrec8 (ignored : BitVec 12)
  | unrec9 (ignored : BitVec 12)
  | unrec10 (ignored : BitVec 12)
  | unrec11 (ignored : BitVec 12)
  | unrec12 (ignored : BitVec 12)
  | unrec13 (ignored : BitVec 12)
  | unrec14 (ignored : BitVec 12)
  | unrec15 (ignored : BitVec 12)
  deriving DecidableEq, Repr

/-- The decoded instruction (R33, R62): five fields, always all computed, recomputed at every decode and no part of the state. -/
structure Decoded where
  opcode : Nibble
  operand1 : Nibble
  operand2 : Nibble
  operand3 : Nibble
  immediate : Immediate
  deriving DecidableEq, Repr

/-- The four uses of the one physical format (R64). -/
inductive Form where
  | H  -- `halt`: no operand field carries meaning
  | I  -- `loadi`: a destination index and the immediate
  | R  -- `add`: a destination index and two source indices
  | U  -- opcodes 3 to 15: no operand field carries meaning
  deriving DecidableEq, Repr

/-- A line of assembly as written, its numbers not yet checked (R70).
There is no line for an unrecognized opcode. -/
inductive AsmLine where
  | halt
  | loadi (d : Nat) (imm : Int)
  | add (d a b : Nat)
  deriving DecidableEq, Repr

end Sys2Proof
end

