-- ==== Sys2Proof/Config.lean ====
section
/-! DEFINITION. The implementation parameters of the machine (00_scope.md R5 to R8) and the one value the spec leaves open. -/

namespace Sys2Proof

/-- One choice of the parameters a machine is constructed with (R5, R6, R8).
`L` is the length of `program`; `PCW` is not here, because the counter is an unbounded natural number
(R7 and R28 allow it and no rule can tell the two apart; assumption 4). -/
structure Config where
  /-- `N`, the register width in bits; the spec asks for N at least 10 (R5). -/
  width : Nat
  /-- `PROGRAM`, the words of the program store, index 0 first (R6, R41). -/
  program : List Word
  /-- `STRICT_OPCODE`: whether an unrecognized opcode is a fatal fault (R8). -/
  strictOpcode : Bool
  deriving DecidableEq, Repr

/-- `L`, the number of words of the program store (R6). -/
def Config.length (c : Config) : Nat := c.program.length

/-- The reference program, the spec's default content of the program store (R6). -/
def referenceProgram : List Word := [0x1064, 0x11C8, 0x2201, 0x0000]

/-- The default configuration: N = 32, the reference program, lenient opcodes (R5, R6, R8). -/
def Config.default : Config where
  width := 32
  program := referenceProgram
  strictOpcode := false

/-- `render_reg` (R141, D17, U6): the text a snapshot shows for a register value outside 0 to 65535.
A FREE VALUE: the spec leaves it open, so it has no body and no proof can know it (assumption 12). -/
opaque Config.renderReg : Int → String

end Sys2Proof
end

