-- ==== Sys2Proof/WellFormed.lean ====
section
/-! DEFINITION. Which instructions and configurations are well formed. An ill-formed instruction still runs: it raises `InvalidRegister`. -/

namespace Sys2Proof

/-- A 4-bit field names a register exactly when its value is 0 to 3 (R11, R64). -/
def namesRegister (f : Nibble) : Bool := decide (f.toNat ≤ 3)

/-- Every field the instruction uses as a register index names a register (R64, R152).
The fields of `halt` and of an unrecognized word are ignored and never checked (R66, D14). -/
def Instr.wellFormed : Instr → Bool
  | .halt => true
  | .loadi d _ => namesRegister d
  | .add d a b => namesRegister d && namesRegister a && namesRegister b
  | .unrec3 _ => true
  | .unrec4 _ => true
  | .unrec5 _ => true
  | .unrec6 _ => true
  | .unrec7 _ => true
  | .unrec8 _ => true
  | .unrec9 _ => true
  | .unrec10 _ => true
  | .unrec11 _ => true
  | .unrec12 _ => true
  | .unrec13 _ => true
  | .unrec14 _ => true
  | .unrec15 _ => true

/-- A line an assembler accepts: register numbers 0 to 3 and an immediate of 0 to 255 (R70, D20). -/
def AsmLine.legal : AsmLine → Bool
  | .halt => true
  | .loadi d imm => decide (d ≤ 3) && decide (0 ≤ imm) && decide (imm ≤ 255)
  | .add d a b => decide (d ≤ 3) && decide (a ≤ 3) && decide (b ≤ 3)

/-- The spec's one constraint on a configuration: N is at least 10 (R5).
Any words and any length, 0 included, make a legal program (R6). -/
def Config.wellFormed (c : Config) : Bool := decide (10 ≤ c.width)

end Sys2Proof
end

