-- ==== Sys2Proof/Decode.lean ====
section
/-! DEFINITION. The decoder (R62, R65), which is total on the 16-bit words and cannot fail (R85), then the encoder (R71) and the assembler's check (R70). -/

namespace Sys2Proof

/-- `decode(w)` of R62: the five fields of a word. -/
def decodeFields (w : Word) : Decoded where
  opcode := w.extractLsb' 12 4
  operand1 := w.extractLsb' 8 4
  operand2 := w.extractLsb' 4 4
  operand3 := w.extractLsb' 0 4
  immediate := w.extractLsb' 0 8

/-- Bits 11 to 0 of the word the fields came from, which an unrecognized opcode ignores (R120). -/
def Decoded.low (f : Decoded) : BitVec 12 := f.operand1 ++ f.operand2 ++ f.operand3

/-- The row of the opcode map the fields belong to (R65, R87): selected by the opcode alone. -/
def Decoded.instr (f : Decoded) : Instr :=
  match f.opcode with
  | 0#4 => .halt
  | 1#4 => .loadi f.operand1 f.immediate
  | 2#4 => .add f.operand1 f.operand2 f.operand3
  | 3#4 => .unrec3 f.low
  | 4#4 => .unrec4 f.low
  | 5#4 => .unrec5 f.low
  | 6#4 => .unrec6 f.low
  | 7#4 => .unrec7 f.low
  | 8#4 => .unrec8 f.low
  | 9#4 => .unrec9 f.low
  | 10#4 => .unrec10 f.low
  | 11#4 => .unrec11 f.low
  | 12#4 => .unrec12 f.low
  | 13#4 => .unrec13 f.low
  | 14#4 => .unrec14 f.low
  | _ => .unrec15 f.low  -- 15, the one value left

/-- The instruction a word stands for: every word has exactly one (R65, R84, R85). -/
def decode (w : Word) : Instr := (decodeFields w).instr

/-- The instruction the decoder reads from a word of `nbits` bits, numbered as the opcode table numbers them.
Every instruction is exactly one 16-bit word (R60), so more than 16 bits, or a number those bits cannot hold, is no
instruction (assumption 10). -/
def decodeTableWord (nbits w : Nat) : Option Instr :=
  if nbits ≤ 16 ∧ w < 2 ^ nbits then some (decode (BitVec.ofNat 16 w)) else none

/-- The opcode of an instruction (R65). -/
def Instr.opcode : Instr → Nibble
  | .halt => 0
  | .loadi _ _ => 1
  | .add _ _ _ => 2
  | .unrec3 _ => 3
  | .unrec4 _ => 4
  | .unrec5 _ => 5
  | .unrec6 _ => 6
  | .unrec7 _ => 7
  | .unrec8 _ => 8
  | .unrec9 _ => 9
  | .unrec10 _ => 10
  | .unrec11 _ => 11
  | .unrec12 _ => 12
  | .unrec13 _ => 13
  | .unrec14 _ => 14
  | .unrec15 _ => 15

/-- Bits 11 to 0 of the instruction's word, by its form (R61, R64).
Those of `halt` are 0, its canonical encoding (R66). -/
def Instr.low : Instr → BitVec 12
  | .halt => 0
  | .loadi d imm => d ++ imm
  | .add d a b => d ++ a ++ b
  | .unrec3 low => low
  | .unrec4 low => low
  | .unrec5 low => low
  | .unrec6 low => low
  | .unrec7 low => low
  | .unrec8 low => low
  | .unrec9 low => low
  | .unrec10 low => low
  | .unrec11 low => low
  | .unrec12 low => low
  | .unrec13 low => low
  | .unrec14 low => low
  | .unrec15 low => low

/-- The word of an instruction: `encode` of R71 on the three defined instructions, the word itself on an unrecognized one. -/
def encode (i : Instr) : Word := i.opcode ++ i.low

/-- The use of the one format the instruction makes (R64). -/
def Instr.form : Instr → Form
  | .halt => .H
  | .loadi _ _ => .I
  | .add _ _ _ => .R
  | .unrec3 _ => .U
  | .unrec4 _ => .U
  | .unrec5 _ => .U
  | .unrec6 _ => .U
  | .unrec7 _ => .U
  | .unrec8 _ => .U
  | .unrec9 _ => .U
  | .unrec10 _ => .U
  | .unrec11 _ => .U
  | .unrec12 _ => .U
  | .unrec13 _ => .U
  | .unrec14 _ => .U
  | .unrec15 _ => .U

/-- The instruction of a legal assembly line; an assembler refuses any other line (R70, D20). -/
def AsmLine.instr (line : AsmLine) : Option Instr :=
  if line.legal then
    match line with
    | .halt => some .halt
    | .loadi d imm => some (.loadi (BitVec.ofNat 4 d) (BitVec.ofInt 8 imm))
    | .add d a b => some (.add (BitVec.ofNat 4 d) (BitVec.ofNat 4 a) (BitVec.ofNat 4 b))
  else none

/-- The word an assembler produces for a line, or its refusal (R70, R71). -/
def AsmLine.assemble (line : AsmLine) : Option Word := line.instr.map encode

end Sys2Proof
end

