-- ==== Sys2Proof/Machine/State.lean ====
section
/-! DEFINITION. The state of the machine (10_state.md), the reasons a step can stop, and the state after reset (R35). -/

namespace Sys2Proof.Machine

/-- The content of the fault register: a cause (R30, R150).
D8 lets a model use names in place of the 2-bit codes; `Cause.code` gives the codes. -/
inductive Cause where
  | none
  | programOutOfBounds
  | invalidRegister
  | invalidOpcode
  deriving DecidableEq, Repr

/-- Everything the spec gives the machine. -/
structure State where
  /-- The register file: 4 cells, each an N-bit signed integer (R20, R21); `Inv` says they stay in range. -/
  x : Vector Int 4
  /-- The program counter: the word index of the next fetch (R24). -/
  pc : Nat
  /-- The running flag (R29). -/
  running : Bool
  /-- The fault register (R30). -/
  fault : Cause
  /-- The parameters the machine was constructed with, `PROGRAM` among them: no state of the spec's, held here because
  a step takes the state alone; nothing in the machine writes it (R45, R53, R182; assumption 1). -/
  config : Config
  deriving DecidableEq, Repr

/-- Why there is no step. Both are the spec's own ends of a run (R90, R93): the loop is `while running and fault = 0`. -/
inductive Fault where
  /-- Raised by `step` alone, in loop state Halted: a normal end, after which no step exists (R93, R95).
  Safe: nothing is claimed of a step that does not exist. -/
  | halted
  /-- Raised by `step` alone, in loop state Faulted: the fault register holds the cause and no step exists (R90, R156).
  Safe: nothing is claimed of a step that does not exist. -/
  | faulted
  deriving DecidableEq, Repr

/-- Why an instruction has no meaning. Nothing in this model answers with one. -/
inductive Refusal where
  /-- Raised by no arm of `exec`: every row of the opcode table has its meaning. Safe. -/
  | notModelled (mnemonic : String)
  deriving DecidableEq, Repr

/-- The machine as construction, or a later re-initialization, leaves it (R35, R180): all registers 0, the counter 0,
running, no fault. -/
def State.construct (c : Config) : State where
  x := #v[0, 0, 0, 0]
  pc := 0
  running := true
  fault := .none
  config := c

/-- The machine right after reset, in the spec's default configuration (R35, R5, R6, R8; assumption 2). -/
def State.reset : State := State.construct Config.default

end Sys2Proof.Machine
end

