-- ==== Sys2Proof/Machine/Ops.lean ====
section
/-! DEFINITION. The named operations over the registers, the program store, the counter and the fault register (R10). -/

namespace Sys2Proof.Machine

/-- `wrap_N(z)` (R10): the integer congruent to `z` modulo 2^N in the range -2^(N-1) to 2^(N-1)-1. -/
def wrapN (n : Nat) (z : Int) : Int := Int.bmod z (2 ^ n)

/-- `zext_N(v)` (R10) of the 8-bit immediate: extended with zeros to N bits, then read as a signed N-bit number.
For N at least 10 this is the value 0 to 255 (R63). -/
def zextN (n : Nat) (v : Immediate) : Int := (v.setWidth n).toInt

/-- `x[r]`: read a register cell (R10, R23). -/
def State.readReg (s : State) (r : Fin 4) : Int := s.x[r]

/-- `x[r] <- v`: write a register cell (R10, R23). -/
def State.writeReg (s : State) (r : Fin 4) (v : Int) : State := { s with x := s.x.set r v }

/-- `MemRead(addr, 16)` (R10, R43): the word at index `addr` of the program store; nothing stands at `L` and above (R48). -/
def State.memRead (s : State) (addr : Nat) : Option Word := s.config.program[addr]?

/-- `pc <- pc + 1` (R25, R81). -/
def State.advancePc (s : State) : State := { s with pc := s.pc + 1 }

/-- `raise <Fault>` (R10, R156): taking a fault does exactly one thing, it records the cause.
There is no handler, no saved state and no return (R156, R158); the machine is then Faulted. -/
def State.raise (s : State) (c : Cause) : State := { s with fault := c }

/-- The fetch operation (R80 to R82): the word at the counter, which then advances; past the end of the program no word,
and `ProgramOutOfBounds` with the counter unchanged. -/
def State.fetch (s : State) : Option Word × State :=
  match s.memRead s.pc with
  | some w => (some w, s.advancePc)
  | none => (none, s.raise .programOutOfBounds)

/-- Re-initialization, the host's reset (R180, R181): the whole state is replaced, the parameters stay (R182). -/
def State.reinit (s : State) : State := State.construct s.config

/-- The cause code the fault register holds (R30, R150). -/
def Cause.code : Cause → BitVec 2
  | .none => 0
  | .programOutOfBounds => 1
  | .invalidRegister => 2
  | .invalidOpcode => 3

/-- The program store with `w` at index `k`; a store too short is extended with zero words below `k`, which lie behind the
counter and are never fetched (assumption 9). -/
def storeWithWordAt (p : List Word) (k : Nat) (w : Word) : List Word :=
  p.take k ++ List.replicate (k - p.length) 0 ++ w :: p.drop (k + 1)

/-- The machine constructed anew around the word `w`: `w` is what the next fetch returns, and the loop is Running so that
there is a next fetch (assumption 9). -/
def State.placeWord (s : State) (w : Word) : State :=
  { s with
    running := true
    fault := .none
    config := { s.config with program := storeWithWordAt s.config.program s.pc w } }

end Sys2Proof.Machine
end

