-- ==== Sys2Proof/Machine/Operands.lean ====
section
/-! DEFINITION. The operand forms (R64): register-index fields and the immediate. -/

namespace Sys2Proof.Machine

/-- The register a 4-bit field names: its value when that is 0 to 3, nothing when it is 4 to 15 (R23, R64, R152).
An index is never reduced modulo 4. -/
def regIndex? (f : Nibble) : Option (Fin 4) :=
  if h : f.toNat < 4 then some ⟨f.toNat, h⟩ else none

/-- The index a register-file port is given (R132): the low 2 bits of the field, once its high 2 bits are seen to be zero. -/
def portIndex? (f : Nibble) : Option (BitVec 2) :=
  if f.extractLsb' 2 2 = 0 then some (f.extractLsb' 0 2) else none

end Sys2Proof.Machine
end

