-- ==== Sys2Proof/Machine/Arithmetic.lean ====
section
/-! DEFINITION. The arithmetic family: `add` (43_add.md). -/

namespace Sys2Proof.Machine

/-- `add r<d> r<a> r<b>` (R110): all three fields are checked first; then the sum of the two sources as they were before the
instruction (R112), wrapped to N bits (R113), goes into `x[d]`. No flag records an overflow (R31). -/
def execAdd (d a b : Nibble) (s : State) : Host.Outcome State Fault Refusal :=
  match regIndex? d, regIndex? a, regIndex? b with
  | some d, some a, some b => .next (s.writeReg d (wrapN s.config.width (s.readReg a + s.readReg b)))
  | _, _, _ => .next (s.raise .invalidRegister)

end Sys2Proof.Machine
end

