-- ==== Sys2Proof/Machine/DataMovement.lean ====
section
/-! DEFINITION. The data movement family: `loadi` (42_loadi.md). -/

namespace Sys2Proof.Machine

/-- `loadi r<d> #<imm>` (R105): the immediate, zero-extended, into `x[d]`; `InvalidRegister` when `d` is 4 to 15. -/
def execLoadi (d : Nibble) (imm : Immediate) (s : State) : Host.Outcome State Fault Refusal :=
  match regIndex? d with
  | some d => .next (s.writeReg d (zextN s.config.width imm))
  | none => .next (s.raise .invalidRegister)

end Sys2Proof.Machine
end

