-- ==== Sys2Proof/Machine/Flags.lean ====
section
/-! DEFINITION. The running flag and the loop state derived from it and the fault register (R29, R90). There are no condition codes (R31). -/

namespace Sys2Proof.Machine

/-- `running <- false` (R29, R100). -/
def State.clearRunning (s : State) : State := { s with running := false }

/-- The loop state (R90): a function of `running` and `fault`, no state of its own. -/
inductive LoopState where
  | running
  | halted
  | faulted
  deriving DecidableEq, Repr

/-- The table of R90. The row `running` = false with a fault recorded is unreachable (R36b) and read as Halted (assumption 7). -/
def State.loopState (s : State) : LoopState :=
  if s.running then (if s.fault = .none then .running else .faulted) else .halted

/-- The spec's test for "the machine has stopped" (R159): `running` = false or `fault` not 0. -/
def State.stopped (s : State) : Bool := !s.running || decide (s.fault ≠ .none)

end Sys2Proof.Machine
end

