-- ==== Sys2Proof/Machine/System.lean ====
section
/-! DEFINITION. The system family: `halt` (41_halt.md). -/

namespace Sys2Proof.Machine

/-- `halt` (R100): clears the running flag; no register, no counter, no fault. -/
def execHalt (s : State) : Host.Outcome State Fault Refusal := .next s.clearRunning

end Sys2Proof.Machine
end

