-- ==== Sys2Proof/Machine/Unrecognized.lean ====
section
/-! DEFINITION. The unrecognized opcodes 3 to 15 (44_unrecognized.md), one meaning each over one shared operation. -/

namespace Sys2Proof.Machine

/-- An unrecognized opcode (R120): `InvalidOpcode` when `STRICT_OPCODE` is true, otherwise nothing. -/
def State.unrecognized (s : State) : Host.Outcome State Fault Refusal :=
  if s.config.strictOpcode then .next (s.raise .invalidOpcode) else .next s

/-- Opcode 3 (R120); its low 12 bits are ignored and not checked. -/
def execUnrec3 (_ignored : BitVec 12) (s : State) : Host.Outcome State Fault Refusal := s.unrecognized

/-- Opcode 4 (R120); its low 12 bits are ignored and not checked. -/
def execUnrec4 (_ignored : BitVec 12) (s : State) : Host.Outcome State Fault Refusal := s.unrecognized

/-- Opcode 5 (R120); its low 12 bits are ignored and not checked. -/
def execUnrec5 (_ignored : BitVec 12) (s : State) : Host.Outcome State Fault Refusal := s.unrecognized

/-- Opcode 6 (R120); its low 12 bits are ignored and not checked. -/
def execUnrec6 (_ignored : BitVec 12) (s : State) : Host.Outcome State Fault Refusal := s.unrecognized

/-- Opcode 7 (R120); its low 12 bits are ignored and not checked. -/
def execUnrec7 (_ignored : BitVec 12) (s : State) : Host.Outcome State Fault Refusal := s.unrecognized

/-- Opcode 8 (R120); its low 12 bits are ignored and not checked. -/
def execUnrec8 (_ignored : BitVec 12) (s : State) : Host.Outcome State Fault Refusal := s.unrecognized

/-- Opcode 9 (R120); its low 12 bits are ignored and not checked. -/
def execUnrec9 (_ignored : BitVec 12) (s : State) : Host.Outcome State Fault Refusal := s.unrecognized

/-- Opcode 10 (R120); its low 12 bits are ignored and not checked. -/
def execUnrec10 (_ignored : BitVec 12) (s : State) : Host.Outcome State Fault Refusal := s.unrecognized

/-- Opcode 11 (R120); its low 12 bits are ignored and not checked. -/
def execUnrec11 (_ignored : BitVec 12) (s : State) : Host.Outcome State Fault Refusal := s.unrecognized

/-- Opcode 12 (R120); its low 12 bits are ignored and not checked. -/
def execUnrec12 (_ignored : BitVec 12) (s : State) : Host.Outcome State Fault Refusal := s.unrecognized

/-- Opcode 13 (R120); its low 12 bits are ignored and not checked. -/
def execUnrec13 (_ignored : BitVec 12) (s : State) : Host.Outcome State Fault Refusal := s.unrecognized

/-- Opcode 14 (R120); its low 12 bits are ignored and not checked. -/
def execUnrec14 (_ignored : BitVec 12) (s : State) : Host.Outcome State Fault Refusal := s.unrecognized

/-- Opcode 15 (R120); its low 12 bits are ignored and not checked. -/
def execUnrec15 (_ignored : BitVec 12) (s : State) : Host.Outcome State Fault Refusal := s.unrecognized

end Sys2Proof.Machine
end

