-- ==== Sys2Proof/Machine/Dispatch.lean ====
section
/-! DEFINITION. The evaluator's dispatch (R86, R87): one arm per constructor of `Instr`. -/

namespace Sys2Proof.Machine

def exec (i : Instr) (s : State) : Host.Outcome State Fault Refusal :=
  match i with
  | .halt => Sys2Proof.Machine.execHalt s
  | .loadi d imm => Sys2Proof.Machine.execLoadi d imm s
  | .add d a b => Sys2Proof.Machine.execAdd d a b s
  | .unrec3 ignored => Sys2Proof.Machine.execUnrec3 ignored s
  | .unrec4 ignored => Sys2Proof.Machine.execUnrec4 ignored s
  | .unrec5 ignored => Sys2Proof.Machine.execUnrec5 ignored s
  | .unrec6 ignored => Sys2Proof.Machine.execUnrec6 ignored s
  | .unrec7 ignored => Sys2Proof.Machine.execUnrec7 ignored s
  | .unrec8 ignored => Sys2Proof.Machine.execUnrec8 ignored s
  | .unrec9 ignored => Sys2Proof.Machine.execUnrec9 ignored s
  | .unrec10 ignored => Sys2Proof.Machine.execUnrec10 ignored s
  | .unrec11 ignored => Sys2Proof.Machine.execUnrec11 ignored s
  | .unrec12 ignored => Sys2Proof.Machine.execUnrec12 ignored s
  | .unrec13 ignored => Sys2Proof.Machine.execUnrec13 ignored s
  | .unrec14 ignored => Sys2Proof.Machine.execUnrec14 ignored s
  | .unrec15 ignored => Sys2Proof.Machine.execUnrec15 ignored s

end Sys2Proof.Machine
end

