-- ==== Sys2Proof/Machine/Loop.lean ====
section
/-! DEFINITION. One iteration of the execution loop (R89): fetch, decode, evaluate, in state Running alone (R90). -/

namespace Sys2Proof.Machine

/-- One iteration (R89): the word at the counter is fetched, decoded and evaluated; a fetch past the end raises
`ProgramOutOfBounds` and ends the iteration (R82). In Halted and Faulted there is no iteration (R90, R93; assumption 6). -/
def State.iteration (s : State) : Host.Outcome State Fault Refusal :=
  match s.loopState with
  | .halted => .fault .halted
  | .faulted => .fault .faulted
  | .running =>
    match s.fetch with
    | (some w, t) => exec (decode w) t
    | (none, t) => .next t

end Sys2Proof.Machine
end

