-- ==== Sys2Proof/Machine/Step.lean ====
section
/-! DEFINITION. The step of the machine, one iteration of its loop, and where the next instruction is fetched from. -/

namespace Sys2Proof.Machine

/-- One step of the machine is one iteration of the execution loop (R12, R89, R133). -/
def step (s : State) : Host.Outcome State Fault Refusal := s.iteration

/-- `s` with the instruction whose bits are `w` where the next fetch reads (assumption 9). -/
def State.withFetchWord (s : State) (nbits w : Nat) : State :=
  s.placeWord (BitVec.ofNat 16 (w % 2 ^ nbits))

end Sys2Proof.Machine
end

