-- ==== Sys2Proof/Machine/Run.lean ====
section
/-! DEFINITION. Runs of the machine: several steps, several fetches, and the end of a run (R83, R95, R96). -/

namespace Sys2Proof.Machine

/-- The state after an outcome of `s`; where there is no step the state stays as it is (R93). -/
def State.after (s : State) (o : Host.Outcome State Fault Refusal) : State :=
  match o with
  | .next t => t
  | .fault _ => s
  | .refused _ => s

/-- `k` rounds of `while running and fault = 0 do step()` (R89). -/
def runSteps : Nat → State → State
  | 0, s => s
  | k + 1, s => runSteps k (s.after (step s))

/-- The state a machine of configuration `c` ends its run in: every run ends within L + 1 steps (R95, R96). -/
def endOfRun (c : Config) : State := runSteps (c.length + 1) (State.construct c)

/-- `n` fetches one after the other, with nothing evaluated between them: what each returned, and the state they leave (R83). -/
def fetchTimes : Nat → State → List (Option Word) × State
  | 0, s => ([], s)
  | n + 1, s => (s.fetch.1 :: (fetchTimes n s.fetch.2).1, (fetchTimes n s.fetch.2).2)

end Sys2Proof.Machine
end

