-- ==== Sys2Proof/Machine/Ports.lean ====
section
/-! DEFINITION. The signal-level rendering (R131 to R133), the spec's own illustration: top-level ports and one active clock edge. -/

namespace Sys2Proof.Machine

/-- The inputs sampled at an active edge of `clk` (R131). -/
structure InPorts where
  rst : Bool
  romData : Word
  deriving DecidableEq, Repr

/-- The outputs that are functions of the state (R131), for a counter of `pcw` bits (R7) and registers of `n` bits. -/
structure OutPorts (pcw n : Nat) where
  romAddr : BitVec pcw
  running : Bool
  fault : BitVec 2
  halted : Bool
  dbgX0 : BitVec n
  dbgX1 : BitVec n
  dbgX2 : BitVec n
  dbgX3 : BitVec n
  dbgPc : BitVec pcw
  deriving DecidableEq, Repr

/-- The outputs a state drives (R131). -/
def State.outPorts (pcw : Nat) (s : State) : OutPorts pcw s.config.width where
  romAddr := BitVec.ofNat pcw s.pc
  running := s.running
  fault := s.fault.code
  halted := !s.running
  dbgX0 := BitVec.ofInt _ (s.readReg 0)
  dbgX1 := BitVec.ofInt _ (s.readReg 1)
  dbgX2 := BitVec.ofInt _ (s.readReg 2)
  dbgX3 := BitVec.ofInt _ (s.readReg 3)
  dbgPc := BitVec.ofNat pcw s.pc

/-- The instruction ROM answers within the iteration (R131, R133): the addressed word while the address is below L.
Above, `romData` is ignored and may be anything. -/
def romAnswers (s : State) (i : InPorts) : Prop := ∀ w, s.memRead s.pc = some w → i.romData = w

/-- One active edge (R131): reset when `rst` is high, else one iteration on the word the ROM shows, with the counter compared
with L by the fetch unit; a stopped machine holds its state. One iteration per edge is the model's choice (assumption 14). -/
def State.clockEdge (s : State) (i : InPorts) : State :=
  if i.rst then s.reinit
  else if s.stopped then s
  else if s.pc < s.config.length then s.advancePc.after (exec (decode i.romData) s.advancePc)
  else s.raise .programOutOfBounds

/-- The `retire` output of an edge (R131): an iteration completed and raised no fault. -/
def State.retire (s : State) (i : InPorts) : Bool :=
  !i.rst && !s.stopped && decide (s.pc < s.config.length) && decide ((s.clockEdge i).fault = .none)

end Sys2Proof.Machine
end

