-- ==== Sys2Proof/Machine/Program.lean ====
section
/-! DEFINITION. Well-formed programs (R184, R185): a check on the words alone. -/

namespace Sys2Proof.Machine

/-- A word that may stand before the first `halt` of a well-formed program (R185): a `loadi` or an `add` whose
register-index fields are 0 to 3. -/
def legalBeforeHalt (w : Word) : Bool :=
  let f := decodeFields w
  (decide (f.opcode = 1) && namesRegister f.operand1)
    || (decide (f.opcode = 2) && namesRegister f.operand1 && namesRegister f.operand2 && namesRegister f.operand3)

/-- `h` is the index of the first `halt` word, and every word before it is a legal `loadi` or `add` (R185). -/
def haltsAt (p : List Word) (h : Nat) : Bool :=
  p[h]?.any (fun w => decide ((decodeFields w).opcode = 0)) && (p.take h).all legalBeforeHalt

/-- `wf(PROGRAM)` of R185. -/
def programWellFormed (p : List Word) : Bool := (List.range p.length).any (haltsAt p)

end Sys2Proof.Machine
end

