-- ==== Sys2Proof/Machine/Trace.lean ====
section
/-! DEFINITION. Observation (R137) and the trace (R139 to R145): pure functions of the states and the words executed, which feed nothing back. -/

namespace Sys2Proof.Machine

/-- What can be seen from outside between iterations (R137): the architectural state, without the parameters. -/
structure Observation where
  x : Vector Int 4
  pc : Nat
  running : Bool
  fault : BitVec 2
  deriving DecidableEq, Repr

/-- Observing a state (R137); the fault register shows its cause code (R150). -/
def State.observe (s : State) : Observation where
  x := s.x
  pc := s.pc
  running := s.running
  fault := s.fault.code

/-- A hexadecimal digit, upper case (R141). -/
def hexDigit (d : Nat) : Char := if d < 10 then Char.ofNat (48 + d) else Char.ofNat (55 + d)

/-- `hex4(v)` for `v` of 0 to 65535 (R141): four digits, most significant first. -/
def hex4 (v : Nat) : String :=
  String.ofList [hexDigit (v / 4096 % 16), hexDigit (v / 256 % 16), hexDigit (v / 16 % 16), hexDigit (v % 16)]

/-- The textual form of a word (R69). -/
def wordText (w : Word) : String := hex4 w.toNat

/-- A register value in a snapshot: `hex4` on 0 to 65535, the free `render_reg` elsewhere (R141, D17). -/
def renderCell (v : Int) : String := if 0 ≤ v ∧ v ≤ 65535 then hex4 v.toNat else Config.renderReg v

/-- The snapshot line (R140). -/
def snapshot (s : State) : String :=
  "regs = " ++ renderCell (s.readReg 0) ++ " " ++ renderCell (s.readReg 1) ++ " " ++ renderCell (s.readReg 2) ++ " "
    ++ renderCell (s.readReg 3)

/-- A register in assembly syntax: `r` and its index in decimal (R70). -/
def regText (d : Nat) : String := "r" ++ Nat.repr d

/-- The text of a legal assembly line: single spaces, decimal numbers, the destination first (R70). -/
def asmText : AsmLine → String
  | .halt => "halt"
  | .loadi d imm => "loadi " ++ regText d ++ " #" ++ Int.repr imm
  | .add d a b => "add " ++ regText d ++ " " ++ regText a ++ " " ++ regText b

/-- The description line of an unrecognized word (R142). -/
def oops : String := "oops"

/-- The description line of an executed instruction (R142). -/
def description : Instr → String
  | .halt => asmText .halt
  | .loadi d imm => asmText (.loadi d.toNat imm.toNat)
  | .add d a b => asmText (.add d.toNat a.toNat b.toNat)
  | .unrec3 _ => oops
  | .unrec4 _ => oops
  | .unrec5 _ => oops
  | .unrec6 _ => oops
  | .unrec7 _ => oops
  | .unrec8 _ => oops
  | .unrec9 _ => oops
  | .unrec10 _ => oops
  | .unrec11 _ => oops
  | .unrec12 _ => oops
  | .unrec13 _ => oops
  | .unrec14 _ => oops
  | .unrec15 _ => oops

/-- The lines one iteration from `s` emits (R143): the description of the instruction executed and the snapshot after it; none
when the iteration raises a fault (R144) or there is no iteration. -/
def iterationLines (s : State) : List String :=
  match s.memRead s.pc, step s with
  | some w, .next t => if t.fault = .none then [description (decode w), snapshot t] else []
  | _, _ => []

/-- The lines of `k` iterations. -/
def linesOf : Nat → State → List String
  | 0, _ => []
  | k + 1, s => iterationLines s ++ linesOf k (s.after (step s))

/-- The trace of the run of a machine of configuration `c` (R143): the snapshot after reset, then the lines of every
iteration; L + 1 iterations are all there can be (R96). -/
def trace (c : Config) : List String :=
  snapshot (State.construct c) :: linesOf (c.length + 1) (State.construct c)

end Sys2Proof.Machine
end

