-- ==== Sys2Proof/Safety.lean ====
section
/-! DEFINITION. What the claims call a sound state and a good end of a run: the invariants of R36 and the ends of R95 and R159. -/

namespace Sys2Proof.Machine

/-- `z` is an N-bit signed integer (R5): -2^(N-1) to 2^(N-1)-1. -/
abbrev InRange (n : Nat) (z : Int) : Prop := -(2 ^ (n - 1)) ≤ z ∧ z < 2 ^ (n - 1)

/-- Every register cell holds an N-bit signed integer (R20). -/
abbrev State.RegsInRange (s : State) : Prop := ∀ r : Fin 4, InRange s.config.width (s.readReg r)

/-- The invariants R36 (a) to (e) of the state, with N at least 10 (R5) and every cell in range (R20). -/
abbrev State.Inv (s : State) : Prop :=
  s.config.wellFormed = true ∧
  s.RegsInRange ∧
  s.pc ≤ s.config.length ∧
  (s.running = false → s.fault = .none) ∧
  (s.fault = .programOutOfBounds → s.pc = s.config.length) ∧
  (s.fault = .invalidRegister ∨ s.fault = .invalidOpcode ∨ s.running = false → 1 ≤ s.pc) ∧
  (s.fault = .invalidOpcode → s.config.strictOpcode = true)

/-- A normal end of a run: Halted, with no fault recorded (R95). -/
abbrev State.EndedNormally (s : State) : Prop := s.running = false ∧ s.fault = .none

/-- An error end of a run: Faulted, never to be read as success (R95, R159). -/
abbrev State.EndedInFault (s : State) : Prop := s.running = true ∧ s.fault ≠ .none

/-- `t` differs from `s` in the register file at most: the frame of an instruction that writes a register.
The program store reads as before at every index. -/
abbrev State.SameControl (s t : State) : Prop :=
  t.pc = s.pc ∧ t.running = s.running ∧ t.fault = s.fault ∧ t.config = s.config ∧ ∀ k, t.memRead k = s.memRead k

/-- Every register cell but `r` holds in `t` what it held in `s`. -/
abbrev State.SameRegsBut (r : Fin 4) (s t : State) : Prop := ∀ q : Fin 4, q ≠ r → t.readReg q = s.readReg q

/-- `t` holds in every register cell, and reads at every index of the program store, what `s` did. -/
abbrev State.SameRegs (s t : State) : Prop := (∀ q : Fin 4, t.readReg q = s.readReg q) ∧ ∀ k, t.memRead k = s.memRead k

end Sys2Proof.Machine
end

