-- ==== Sys2Proof/Certificates/Slice0/Obligations.lean ====
section
/-! DEFINITION. The statements for the provers. -/

open Sys2Proof Sys2Proof.Machine

/-! ### Encoding -/

/-- Words written out from the encoding tables (R61, R65) decode to the instructions they stand for. -/
def Obligations.SampleWordsDecode : Prop :=
  decode 0b0001000001100100#16 = .loadi 0 100 ∧
  decode 0b0001000111001000#16 = .loadi 1 200 ∧
  decode 0b0010001000000001#16 = .add 2 0 1 ∧
  decode 0b0000000000000000#16 = .halt ∧
  decode 0b0011101010111100#16 = .unrec3 0xABC ∧
  decode 0b1000000000000001#16 = .unrec8 0x001 ∧
  decode 0b1111111111111111#16 = .unrec15 0xFFF

/-- R62: the decoder's five fields are the slices of the word, with the source's example. -/
def Obligations.DecodeFieldsSliceTheWord : Prop :=
  (∀ w : Word,
    (decodeFields w).opcode.toNat = (w.toNat >>> 12) % 16 ∧
    (decodeFields w).operand1.toNat = (w.toNat >>> 8) % 16 ∧
    (decodeFields w).operand2.toNat = (w.toNat >>> 4) % 16 ∧
    (decodeFields w).operand3.toNat = w.toNat % 16 ∧
    (decodeFields w).immediate.toNat = w.toNat % 256) ∧
  decodeFields 0x1064 = ⟨1, 0, 6, 4, 0x64⟩

/-- R63 and the decoder laws of 95_test_vectors.md 2.1: the immediate is the two low operand fields put together, and the
fields make up the word. -/
def Obligations.ImmediateJoinsTheLowOperands : Prop :=
  ∀ w : Word,
    (decodeFields w).immediate.toNat = 16 * (decodeFields w).operand2.toNat + (decodeFields w).operand3.toNat ∧
    (decodeFields w).opcode.toNat * 4096 + (decodeFields w).operand1.toNat * 256
      + (decodeFields w).operand2.toNat * 16 + (decodeFields w).operand3.toNat = w.toNat

/-- Every instruction, each operand at every value its field admits, comes back from its own word. -/
def Obligations.DecodeInvertsEncode : Prop := ∀ i : Instr, decode (encode i) = i

/-- The other direction: every word whose opcode is not 0 comes back from its instruction, and a word of opcode 0 comes back
as the canonical `halt`. That bits 11 to 0 of `halt` are ignored is the spec's own decision D14; that an unrecognized
instruction keeps its low 12 bits, so that opcodes 3 to 15 come back at all, is the model's choice (assumption 11), since the
spec's encode function has the three defined instructions alone. -/
def Obligations.EncodeInvertsDecodeButForHalt : Prop :=
  ∀ w : Word, encode (decode w) = if w.toNat < 4096 then 0x0000 else w

/-- The encode function as the spec writes it (30_encoding.md section 6, `encode`), which the spec derives from its tables. -/
def Obligations.EncodeGivesTheSpecsWords : Prop :=
  encode .halt = 0x0000 ∧
  (∀ (d : Nibble) (imm : Immediate),
    encode (.loadi d imm) = (1#16 <<< 12) ||| (d.setWidth 16 <<< 8) ||| imm.setWidth 16) ∧
  (∀ d a b : Nibble,
    encode (.add d a b) = (2#16 <<< 12) ||| (d.setWidth 16 <<< 8) ||| (a.setWidth 16 <<< 4) ||| b.setWidth 16)

/-- The round trip of the three defined instructions, field by field (30_encoding.md section 6), and the word that is no fixed
point: that 0x0ABC is a `halt` rests on the spec's own decision D14 (assumption 11). -/
def Obligations.RoundTripOfDefinedInstructions : Prop :=
  (decodeFields (encode .halt)).opcode = 0 ∧
  (∀ (d : Nibble) (imm : Immediate),
    (decodeFields (encode (.loadi d imm))).opcode = 1 ∧
    (decodeFields (encode (.loadi d imm))).operand1 = d ∧
    (decodeFields (encode (.loadi d imm))).immediate = imm) ∧
  (∀ d a b : Nibble,
    (decodeFields (encode (.add d a b))).opcode = 2 ∧
    (decodeFields (encode (.add d a b))).operand1 = d ∧
    (decodeFields (encode (.add d a b))).operand2 = a ∧
    (decodeFields (encode (.add d a b))).operand3 = b) ∧
  decode 0x0ABC = .halt ∧ encode (decode 0x0ABC) = 0x0000

/-- The opcode map (R65, R87): the opcode field alone selects the row, and the fields of the word are the operands. -/
def Obligations.OpcodeAloneSelectsTheInstruction : Prop :=
  ∀ w : Word,
    (decode w).opcode = (decodeFields w).opcode ∧
    ((decodeFields w).opcode = 0 → decode w = .halt) ∧
    ((decodeFields w).opcode = 1 → decode w = .loadi (decodeFields w).operand1 (decodeFields w).immediate) ∧
    ((decodeFields w).opcode = 2 →
      decode w = .add (decodeFields w).operand1 (decodeFields w).operand2 (decodeFields w).operand3) ∧
    (3 ≤ (decodeFields w).opcode.toNat → (decode w).form = .U)

/-- The assembler (30_encoding.md section 6, decision D20): it accepts exactly the legal lines, what it accepts decodes to a
well-formed instruction, and the description of that instruction is the line's own text. -/
def Obligations.AssemblerAcceptsTheLegalLines : Prop :=
  ∀ line : AsmLine,
    (line.legal = false → line.assemble = none) ∧
    (line.legal = true → ∃ w, line.assemble = some w ∧ line.instr = some (decode w) ∧
      (decode w).wellFormed = true ∧ description (decode w) = asmText line)

/-! ### Fetch and the iteration -/

/-- R81: a fetch below L returns the word at the counter and advances the counter by 1, and nothing else changes. -/
def Obligations.FetchReturnsTheWordAndAdvances : Prop :=
  ∀ (s : State) (h : s.pc < s.config.program.length),
    s.fetch = (some s.config.program[s.pc], { s with pc := s.pc + 1 })

/-- A fetch at L or above returns no word and raises `ProgramOutOfBounds`, and the step ends there.
That the counter stays unchanged is the spec's own decision D6. -/
def Obligations.FetchPastTheEndRaises : Prop :=
  ∀ s : State, s.config.program.length ≤ s.pc →
    s.fetch = (none, { s with fault := .programOutOfBounds }) ∧
    (s.running = true → s.fault = .none → step s = .next { s with fault := .programOutOfBounds })

/-- The fetch property (40_cycle.md section 1): n fetches from counter 0 return the first n words in order and leave the
counter at n; the fetch after the last word returns nothing, leaves the counter at L and records the fault (the spec derives
that last part, and its decision D6 keeps the counter). -/
def Obligations.FetchesReturnTheProgramInOrder : Prop :=
  ∀ s : State, s.pc = 0 →
    (∀ n, n ≤ s.config.program.length →
      (fetchTimes n s).1 = (s.config.program.take n).map some ∧ (fetchTimes n s).2 = { s with pc := n }) ∧
    fetchTimes (s.config.program.length + 1) s =
      (s.config.program.map some ++ [none], { s with pc := s.config.program.length, fault := .programOutOfBounds })

/-- In state Running, a step whose counter is below L is the evaluation of the decoded word, the counter already advanced. -/
def Obligations.StepRunsTheDecodedInstruction : Prop :=
  ∀ (s : State) (w : Word), s.running = true → s.fault = .none → s.config.program[s.pc]? = some w →
    step s = exec (decode w) { s with pc := s.pc + 1 }

/-- Once the machine has stopped it takes no step, whatever the number of rounds (40_cycle.md section 4); the step that halts
it executed a word of opcode 0 and left the counter at that word's index plus 1. That the absence of a step is the outcome
`halted` or `faulted` is the model's choice (assumption 6), and so is `halted` for the unreachable state that is not running and
has a fault recorded (assumption 7). -/
def Obligations.HaltedAndFaultedAreTerminal : Prop :=
  (∀ s : State, s.running = false → step s = .fault .halted) ∧
  (∀ s : State, s.running = true → s.fault ≠ .none → step s = .fault .faulted) ∧
  (∀ (s : State) (k : Nat), s.running = false ∨ s.fault ≠ .none → runSteps k s = s) ∧
  (∀ (s t : State) (k : Nat), step s = .next t → t.running = false →
    t.pc = s.pc + 1 ∧ (∃ w, s.memRead s.pc = some w ∧ (decodeFields w).opcode = 0) ∧ runSteps k t = t)

/-- The transition table (40_cycle.md section 4), every row with the whole state after it, the values that `loadi` and `add`
write included. Its InvalidRegister, InvalidOpcode and lenient rows rest on the spec's own decisions D3 and D4, its first row on
D6, and the wrapped sum of its `add` row on D2. -/
def Obligations.TransitionTable : Prop :=
  ∀ s : State, s.running = true → s.fault = .none →
    (s.config.program.length ≤ s.pc → step s = .next { s with fault := .programOutOfBounds }) ∧
    ∀ w, s.config.program[s.pc]? = some w →
      ((decodeFields w).opcode.toNat = 0 → step s = .next { s with pc := s.pc + 1, running := false }) ∧
      ((decodeFields w).opcode.toNat = 1 →
        (4 ≤ (decodeFields w).operand1.toNat →
          step s = .next { s with pc := s.pc + 1, fault := .invalidRegister }) ∧
        (∀ d : Fin 4, (decodeFields w).operand1.toNat = d.val →
          step s = .next { s with
            pc := s.pc + 1
            x := s.x.set d (zextN s.config.width (decodeFields w).immediate) })) ∧
      ((decodeFields w).opcode.toNat = 2 →
        (4 ≤ (decodeFields w).operand1.toNat ∨ 4 ≤ (decodeFields w).operand2.toNat
            ∨ 4 ≤ (decodeFields w).operand3.toNat →
          step s = .next { s with pc := s.pc + 1, fault := .invalidRegister }) ∧
        (∀ d a b : Fin 4, (decodeFields w).operand1.toNat = d.val → (decodeFields w).operand2.toNat = a.val →
          (decodeFields w).operand3.toNat = b.val →
          step s = .next { s with
            pc := s.pc + 1
            x := s.x.set d (wrapN s.config.width (s.readReg a + s.readReg b)) })) ∧
      (3 ≤ (decodeFields w).opcode.toNat →
        step s = .next (if s.config.strictOpcode then { s with pc := s.pc + 1, fault := .invalidOpcode }
          else { s with pc := s.pc + 1 }))

/-! ### The instructions -/

/-- `halt` always completes: the running flag is cleared and every other part of the state is as it was. -/
def Obligations.HaltClearsRunningAlone : Prop :=
  ∀ s : State, ∃ t, exec .halt s = .next t ∧ t.running = false ∧
    t.pc = s.pc ∧ t.fault = s.fault ∧ t.config = s.config ∧ s.SameRegs t

/-- `loadi` with a destination of 0 to 3 completes: the cell holds the immediate, 0 to 255 and never negative (R63), the other
three cells and all else are as they were. The width N is at least 10, the spec's constraint on a configuration (R5). -/
def Obligations.LoadiWritesTheImmediate : Prop :=
  ∀ (s : State) (d : Nibble) (imm : Immediate) (r : Fin 4), 10 ≤ s.config.width → d.toNat = r.val →
    ∃ t, exec (.loadi d imm) s = .next t ∧ t.readReg r = (imm.toNat : Int) ∧ s.SameRegsBut r t ∧ s.SameControl t

/-- `loadi` never reads the register file (42_loadi.md; the spec derives it): from two states that differ in the registers
alone it leaves the same value in its destination, and does the same to everything else. -/
def Obligations.LoadiReadsNoRegister : Prop :=
  ∀ (s : State) (y : Vector Int 4) (d : Nibble) (imm : Immediate), ∃ t u,
    exec (.loadi d imm) s = .next t ∧ exec (.loadi d imm) { s with x := y } = .next u ∧
    (∀ r : Fin 4, d.toNat = r.val → t.readReg r = u.readReg r) ∧
    u.pc = t.pc ∧ u.running = t.running ∧ u.fault = t.fault ∧ u.config = t.config ∧
    ∀ q : Fin 4, d.toNat ≠ q.val → t.readReg q = s.readReg q ∧ u.readReg q = y[q]

/-- `loadi` twice in a row is `loadi` once (42_loadi.md, corner case (d)), for every destination field. -/
def Obligations.LoadiIsIdempotent : Prop :=
  ∀ (s : State) (d : Nibble) (imm : Immediate), ∃ t,
    exec (.loadi d imm) s = .next t ∧ exec (.loadi d imm) t = .next t

/-- `loadi` with a destination field of 4 to 15 raises `InvalidRegister` with no partial effect: the spec's own decision D3. -/
def Obligations.LoadiBadRegisterRaises : Prop :=
  ∀ (s : State) (d : Nibble) (imm : Immediate), 4 ≤ d.toNat →
    exec (.loadi d imm) s = .next { s with fault := .invalidRegister }

/-- R111: when the mathematical sum fits in N bits the destination receives exactly it, and all other registers and all else
are unchanged. -/
def Obligations.AddIsExactWhenTheSumFits : Prop :=
  ∀ (s : State) (d a b : Nibble) (rd ra rb : Fin 4), 10 ≤ s.config.width →
    d.toNat = rd.val → a.toNat = ra.val → b.toNat = rb.val →
    -(2 ^ (s.config.width - 1)) ≤ s.readReg ra + s.readReg rb →
    s.readReg ra + s.readReg rb ≤ 2 ^ (s.config.width - 1) - 1 →
    ∃ t, exec (.add d a b) s = .next t ∧ t.readReg rd = s.readReg ra + s.readReg rb ∧
      s.SameRegsBut rd t ∧ s.SameControl t

/-- Both sources are read before the destination is written, whichever of the three registers are the same (43_add.md, reads
before the write). That the sum is wrapped where it does not fit is the spec's own decision D2 (assumption 5). -/
def Obligations.AddReadsBeforeItWrites : Prop :=
  (∀ (s : State) (d a b : Nibble) (rd ra rb : Fin 4),
    d.toNat = rd.val → a.toNat = ra.val → b.toNat = rb.val →
    ∃ t, exec (.add d a b) s = .next t ∧ t.readReg rd = wrapN s.config.width (s.readReg ra + s.readReg rb) ∧
      s.SameRegsBut rd t ∧ s.SameControl t) ∧
  (∀ s : State, ∃ t, exec (.add 0 0 1) s = .next t ∧
    t.readReg 0 = wrapN s.config.width (s.readReg 0 + s.readReg 1)) ∧
  (∀ s : State, ∃ t, exec (.add 1 1 1) s = .next t ∧ t.readReg 1 = wrapN s.config.width (2 * s.readReg 1))

/-- Overflow: a sum of 2^(N-1) or more comes out less 2^N and is negative, a sum below -2^(N-1) comes out plus 2^N and is not
negative; no fault and no flag. That the sum wraps is the spec's own decision D2. The operands are N-bit values. -/
def Obligations.AddWrapsOnOverflow : Prop :=
  ∀ (s : State) (d a b : Nibble) (rd ra rb : Fin 4), 10 ≤ s.config.width → s.RegsInRange →
    d.toNat = rd.val → a.toNat = ra.val → b.toNat = rb.val →
    ∃ t, exec (.add d a b) s = .next t ∧ s.SameRegsBut rd t ∧ s.SameControl t ∧
      (2 ^ (s.config.width - 1) ≤ s.readReg ra + s.readReg rb →
        t.readReg rd = s.readReg ra + s.readReg rb - 2 ^ s.config.width ∧ t.readReg rd < 0) ∧
      (s.readReg ra + s.readReg rb < -(2 ^ (s.config.width - 1)) →
        t.readReg rd = s.readReg ra + s.readReg rb + 2 ^ s.config.width ∧ 0 ≤ t.readReg rd)

/-- On N-bit patterns `add` is unsigned addition modulo 2^N (43_add.md sections on overflow and signs; decisions D2 and D22):
the low N bits of the sum of the two patterns, read as a signed number. -/
def Obligations.AddIsPatternAddition : Prop :=
  ∀ (s : State) (d a b : Nibble) (rd ra rb : Fin 4), d.toNat = rd.val → a.toNat = ra.val → b.toNat = rb.val →
    ∃ t, exec (.add d a b) s = .next t ∧
      t.readReg rd =
        (BitVec.ofInt s.config.width (s.readReg ra) + BitVec.ofInt s.config.width (s.readReg rb)).toInt

/-- The sign table (43_add.md, signs; the spec derives it from its decision D2): operands of different sign never overflow, a
sum of two of the same sign overflows exactly past the end of the range on their side. -/
def Obligations.AddSignCombinations : Prop :=
  ∀ (s : State) (d a b : Nibble) (rd ra rb : Fin 4), 10 ≤ s.config.width → s.RegsInRange →
    d.toNat = rd.val → a.toNat = ra.val → b.toNat = rb.val →
    ∃ t, exec (.add d a b) s = .next t ∧
      (0 ≤ s.readReg ra → 0 ≤ s.readReg rb →
        if s.readReg ra + s.readReg rb < 2 ^ (s.config.width - 1)
        then t.readReg rd = s.readReg ra + s.readReg rb
        else t.readReg rd = s.readReg ra + s.readReg rb - 2 ^ s.config.width ∧ t.readReg rd < 0) ∧
      ((0 ≤ s.readReg ra ↔ s.readReg rb < 0) → t.readReg rd = s.readReg ra + s.readReg rb) ∧
      (s.readReg ra < 0 → s.readReg rb < 0 →
        if -(2 ^ (s.config.width - 1)) ≤ s.readReg ra + s.readReg rb
        then t.readReg rd = s.readReg ra + s.readReg rb
        else t.readReg rd = s.readReg ra + s.readReg rb + 2 ^ s.config.width ∧ 0 ≤ t.readReg rd) ∧
      (s.readReg ra = 0 → t.readReg rd = s.readReg rb)

/-- `add` with any of its three fields 4 to 15 raises `InvalidRegister` and writes nothing: the spec's own decision D3. -/
def Obligations.AddBadRegisterRaises : Prop :=
  ∀ (s : State) (d a b : Nibble), 4 ≤ d.toNat ∨ 4 ≤ a.toNat ∨ 4 ≤ b.toNat →
    exec (.add d a b) s = .next { s with fault := .invalidRegister }

/-- With `STRICT_OPCODE` false each of the 13 unrecognized opcodes is a no-operation, its low 12 bits ignored: the default of
the spec's own decision D4. -/
def Obligations.LenientUnrecognizedDoesNothing : Prop :=
  ∀ (s : State) (n : BitVec 12), s.config.strictOpcode = false →
    exec (.unrec3 n) s = .next s ∧ exec (.unrec4 n) s = .next s ∧ exec (.unrec5 n) s = .next s ∧
    exec (.unrec6 n) s = .next s ∧ exec (.unrec7 n) s = .next s ∧ exec (.unrec8 n) s = .next s ∧
    exec (.unrec9 n) s = .next s ∧ exec (.unrec10 n) s = .next s ∧ exec (.unrec11 n) s = .next s ∧
    exec (.unrec12 n) s = .next s ∧ exec (.unrec13 n) s = .next s ∧ exec (.unrec14 n) s = .next s ∧
    exec (.unrec15 n) s = .next s

/-- With `STRICT_OPCODE` true each of the 13 raises `InvalidOpcode` and changes nothing else, its low 12 bits ignored: the
switch of the spec's own decision D4. -/
def Obligations.StrictUnrecognizedRaises : Prop :=
  ∀ (s : State) (i : Instr), s.config.strictOpcode = true → 3 ≤ i.opcode.toNat →
    exec i s = .next { s with fault := .invalidOpcode }

/-! ### Whole-machine rules -/

/-- What one evaluation can do (40_cycle.md section 3; the spec derives it): it always completes, and it writes at most one
cell, or clears the running flag, or records one fault, or nothing, and never two of these. -/
def Obligations.EvaluationDoesAtMostOneThing : Prop :=
  ∀ (i : Instr) (s : State), ∃ t, exec i s = .next t ∧
    (t = s ∨ t = { s with running := false } ∨ (∃ c, c ≠ .none ∧ t = { s with fault := c }) ∨
      ∃ (r : Fin 4) (v : Int), t = { s with x := s.x.set r v })

/-- The counter is written by the fetch and by reset alone (10_state.md section 2). No instruction writes it or depends on it;
a step that fetched leaves it one higher, a step whose fetch failed leaves it: that last is the spec's own decision D6
(assumption 19). -/
def Obligations.CounterWrittenByFetchAlone : Prop :=
  (∀ (i : Instr) (s t : State), exec i s = .next t → t.pc = s.pc) ∧
  (∀ (i : Instr) (s t : State) (p : Nat), exec i s = .next t → exec i { s with pc := p } = .next { t with pc := p }) ∧
  (∀ s t : State, step s = .next t → t.pc = if s.pc < s.config.program.length then s.pc + 1 else s.pc) ∧
  (∀ s : State, s.reinit.pc = 0)

/-- R29: the running flag is set by reset, cleared by `halt` alone, not cleared by a fault and read by no instruction; once
false it stays false until reset. -/
def Obligations.RunningClearedByHaltAlone : Prop :=
  (∀ (i : Instr) (s t : State), exec i s = .next t → t.running = (s.running && decide (i ≠ .halt))) ∧
  (∀ (i : Instr) (s t : State) (b : Bool), i ≠ .halt → exec i s = .next t →
    exec i { s with running := b } = .next { t with running := b }) ∧
  (∀ (s : State) (b : Bool), exec .halt { s with running := b } = exec .halt s) ∧
  (∀ s t : State, step s = .next t →
    (t.running = false ↔ ∃ w, s.config.program[s.pc]? = some w ∧ decode w = .halt)) ∧
  (∀ (s : State) (k : Nat), s.running = false → (runSteps k s).running = false) ∧
  (∀ s : State, s.reinit.running = true)

/-- The fault register (10_state.md section 3, decisions D7 and D8). An evaluation leaves it or records `InvalidRegister` or
`InvalidOpcode`. A step leaves it 0, or is the fetch past the end that records `ProgramOutOfBounds` and nothing else, or leaves
in it what the evaluation of the fetched word recorded. No instruction reads it: whatever it holds, the evaluation records the
same one cause over it, or leaves it and makes the same next state of all else. Once a cause is recorded it stays until reset. -/
def Obligations.FaultRegisterIsSticky : Prop :=
  (∀ (i : Instr) (s t : State), exec i s = .next t →
    t.fault = s.fault ∨ t.fault = .invalidRegister ∨ t.fault = .invalidOpcode) ∧
  (∀ s t : State, step s = .next t →
    t.fault = .none ∨
    (s.config.program.length ≤ s.pc ∧ t = { s with fault := .programOutOfBounds }) ∨
    ((t.fault = .invalidRegister ∨ t.fault = .invalidOpcode) ∧
      ∃ w, s.config.program[s.pc]? = some w ∧
        exec (decode w) { s with pc := s.pc + 1 } = .next { s with pc := s.pc + 1, fault := t.fault } ∧
        t = { s with pc := s.pc + 1, fault := t.fault })) ∧
  (∀ s t : State, step s = .next t → s.config.program.length ≤ s.pc → t.fault = .programOutOfBounds) ∧
  (∀ (i : Instr) (s : State),
    (∃ c', (c' = .invalidRegister ∨ c' = .invalidOpcode) ∧
      ∀ c, exec i { s with fault := c } = .next { s with fault := c' }) ∨
    (∃ t : State, ∀ c, exec i { s with fault := c } = .next { t with fault := c })) ∧
  (∀ (s : State) (k : Nat), s.fault ≠ .none → (runSteps k s).fault = s.fault) ∧
  (∀ s : State, s.reinit.fault = .none)

/-- When `InvalidRegister` is raised (60_exceptions.md, decision D3): exactly by an instruction one of whose used
register-index fields is 4 to 15, and then it changes nothing else. -/
def Obligations.InvalidRegisterExactlyWhenIllFormed : Prop :=
  ∀ (i : Instr) (s : State), s.fault ≠ .invalidRegister →
    ((∃ t, exec i s = .next t ∧ t.fault = .invalidRegister) ↔ i.wellFormed = false) ∧
    (i.wellFormed = false → exec i s = .next { s with fault := .invalidRegister })

/-- R53: a fetch of index k returns the construction-time word for the whole run and across resets. -/
def Obligations.ProgramStoreNeverChanges : Prop :=
  (∀ (i : Instr) (s t : State), exec i s = .next t → t.config = s.config) ∧
  (∀ (c : Config) (n k : Nat), (runSteps n (State.construct c)).memRead k = c.program[k]?) ∧
  (∀ (c : Config) (n m k : Nat), (runSteps m (runSteps n (State.construct c)).reinit).memRead k = c.program[k]?)

/-- The very next instruction sees a register's new value (70_reset_and_hazards.md section 3), whether a `loadi` or an `add`
wrote it, and whether the next `add` reads it as its first source, its second, both or neither; with the reference program's own
pair, `loadi r1 #200` and then `add r2 r0 r1`. That the sums wrap is the spec's own decision D2 (assumption 5). -/
def Obligations.NextInstructionSeesTheWrite : Prop :=
  (∀ (s : State) (d e p q : Fin 4) (imm : Immediate), s.running = true → s.fault = .none → 10 ≤ s.config.width →
    s.config.program[s.pc]? = some (encode (.loadi (BitVec.ofNat 4 d) imm)) →
    s.config.program[s.pc + 1]? = some (encode (.add (BitVec.ofNat 4 e) (BitVec.ofNat 4 p) (BitVec.ofNat 4 q))) →
    ∃ t u, step s = .next t ∧ step t = .next u ∧
      u.readReg e = wrapN s.config.width
        ((if p = d then (imm.toNat : Int) else s.readReg p) + (if q = d then (imm.toNat : Int) else s.readReg q))) ∧
  (∀ (s : State) (d a b e p q : Fin 4) (v : Int), s.running = true → s.fault = .none →
    s.config.program[s.pc]? = some (encode (.add (BitVec.ofNat 4 d) (BitVec.ofNat 4 a) (BitVec.ofNat 4 b))) →
    s.config.program[s.pc + 1]? = some (encode (.add (BitVec.ofNat 4 e) (BitVec.ofNat 4 p) (BitVec.ofNat 4 q))) →
    v = wrapN s.config.width (s.readReg a + s.readReg b) →
    ∃ t u, step s = .next t ∧ step t = .next u ∧
      u.readReg e = wrapN s.config.width
        ((if p = d then v else s.readReg p) + (if q = d then v else s.readReg q))) ∧
  (∀ s : State, s.running = true → s.fault = .none → 10 ≤ s.config.width →
    s.config.program[s.pc]? = some 0x11C8 → s.config.program[s.pc + 1]? = some 0x2201 →
    ∃ t u, step s = .next t ∧ step t = .next u ∧ u.readReg 2 = wrapN s.config.width (s.readReg 0 + 200))

/-- The invariants of the state (10_state.md section 7, which the spec derives; N at least 10 and the registers' range with
them) are kept by every step. -/
def Obligations.StepKeepsTheInvariant : Prop :=
  ∀ s t : State, s.Inv → step s = .next t → t.Inv

/-- Every legal configuration's machine starts in the invariant, the one of State.reset among them. -/
def Obligations.ConstructionMeetsTheInvariant : Prop :=
  (∀ c : Config, c.wellFormed = true → (State.construct c).Inv) ∧ State.reset.Inv

/-- Reset (10_state.md section 6, 70_reset_and_hazards.md section 1): all registers 0, the counter 0, running, no fault, loop
state Running, from construction and from any state. That `fault` resets to 0 is the spec's own decision D10, that State.reset
is the default configuration the model's reading (assumption 2). -/
def Obligations.ResetValues : Prop :=
  (∀ c : Config, (∀ r, (State.construct c).readReg r = 0) ∧ (State.construct c).pc = 0 ∧
    (State.construct c).running = true ∧ (State.construct c).fault = .none ∧
    (State.construct c).loopState = .running ∧ (State.construct c).config = c) ∧
  (∀ s : State, s.reinit = State.construct s.config) ∧
  State.reset = State.construct ⟨32, [0x1064, 0x11C8, 0x2201, 0x0000], false⟩

/-- A reset may come after any number of steps and leaves nothing of the run: the next run starts as the first did
(70_reset_and_hazards.md section 1, decisions D10 and D24). -/
def Obligations.ReinitializationRestartsTheRun : Prop :=
  ∀ (c : Config) (n : Nat), (runSteps n (State.construct c)).reinit = State.construct c

/-! ### Runs -/

/-- Every run ends (40_cycle.md section 6, which the spec derives): from any state the machine has stopped after one step
more than there are words left, so a run from reset after at most L + 1 steps; one still Running after L steps ends with
`ProgramOutOfBounds`, its counter at L by the spec's own decision D6. -/
def Obligations.EveryRunEnds : Prop :=
  (∀ s : State, (runSteps (s.config.program.length - s.pc + 1) s).stopped = true) ∧
  (∀ c : Config, (endOfRun c).EndedNormally ∨ (endOfRun c).EndedInFault) ∧
  (∀ c : Config, (runSteps c.program.length (State.construct c)).stopped = false →
    (endOfRun c).fault = .programOutOfBounds ∧ (endOfRun c).running = true ∧ (endOfRun c).pc = c.program.length)

/-- A well-formed program (70_reset_and_hazards.md section 2, which the spec derives) whose first `halt` is at index h ends
Halted after exactly h + 1 steps, with the counter at h + 1 and no fault, under either value of `STRICT_OPCODE`. -/
def Obligations.WellFormedProgramHalts : Prop :=
  ∀ (c : Config) (h : Nat), haltsAt c.program h = true →
    (∀ k, k ≤ h → (runSteps k (State.construct c)).loopState = .running) ∧
    (runSteps (h + 1) (State.construct c)).loopState = .halted ∧
    (runSteps (h + 1) (State.construct c)).pc = h + 1 ∧
    (runSteps (h + 1) (State.construct c)).fault = .none ∧
    endOfRun c = runSteps (h + 1) (State.construct c)

/-- The counter counts the completed iterations (10_state.md section 7, which the spec derives): while the machine is still
Running after n steps, the counter is n, and after any n steps it is at most n and at most L. -/
def Obligations.CounterCountsIterations : Prop :=
  ∀ (c : Config) (n : Nat),
    ((runSteps n (State.construct c)).loopState = .running → (runSteps n (State.construct c)).pc = n) ∧
    (runSteps n (State.construct c)).pc ≤ min n c.program.length

/-- Any counter width that holds L holds the counter of every sound state, and counting in that width is counting
(10_state.md section 2 and decision D5: no rule tells the widths apart). -/
def Obligations.AnyCounterWidthHoldsThePc : Prop :=
  ∀ (s t : State) (pcw : Nat), s.Inv → s.config.program.length ≤ 2 ^ pcw - 1 → step s = .next t →
    (BitVec.ofNat pcw t.pc).toNat = t.pc ∧
    (s.pc < s.config.program.length → (BitVec.ofNat pcw t.pc) = BitVec.ofNat pcw s.pc + 1)

/-! ### Observation and ports -/

/-- R140: the snapshot line of register values of 0 to 65535, with the spec's example; each value as four upper-case
hexadecimal digits, most significant first, padded with zeros. -/
def Obligations.SnapshotLine : Prop :=
  (∀ (s : State) (a b c d : Nat), a ≤ 65535 → b ≤ 65535 → c ≤ 65535 → d ≤ 65535 → s.x = #v[(a : Int), b, c, d] →
    snapshot s = "regs = " ++ hex4 a ++ " " ++ hex4 b ++ " " ++ hex4 c ++ " " ++ hex4 d) ∧
  (∀ v : Nat, v ≤ 65535 → ∃ a b c d : Fin 16, v = a.val * 4096 + b.val * 256 + c.val * 16 + d.val ∧
    hex4 v = String.ofList ([a, b, c, d].map fun k =>
      #v['0', '1', '2', '3', '4', '5', '6', '7', '8', '9', 'A', 'B', 'C', 'D', 'E', 'F'][k])) ∧
  (∀ s : State, s.x = #v[100, 200, 300, 0] → snapshot s = "regs = 0064 00C8 012C 0000")

/-- The trace (50_interfaces.md section 4; D16 gives a faulting iteration no line): the snapshot after reset, then the lines of
the L + 1 iterations there can be, one after the other; an iteration that raised no fault has the description of its word and the
snapshot after it, any other has none. -/
def Obligations.TraceDescribesThenSnapshots : Prop :=
  (∀ c : Config, trace c =
    snapshot (State.construct c) :: linesOf (c.program.length + 1) (State.construct c)) ∧
  (∀ s : State, linesOf 0 s = []) ∧
  (∀ (s : State) (k : Nat), linesOf (k + 1) s = iterationLines s ++ linesOf k (s.after (step s))) ∧
  (∀ (c : Config) (n : Nat), (trace c).take 1 ++ linesOf n (State.construct c) =
    snapshot (State.construct c) ::
      (List.range n).flatMap fun k => iterationLines (runSteps k (State.construct c))) ∧
  (∀ (s t : State) (w : Word), s.memRead s.pc = some w → step s = .next t →
    iterationLines s = if t.fault = .none then [description (decode w), snapshot t] else []) ∧
  (∀ s : State, s.stopped = true ∨ s.memRead s.pc = none → iterationLines s = [])

/-- The line count (50_interfaces.md section 4; the spec derives it, D16 with it): a run with k completed fault-free iterations
has 1 + 2k lines. The end state gives k: the counter, less the iteration that faulted after its fetch. -/
def Obligations.TraceLineCount : Prop :=
  ∀ c : Config, (trace c).length = 1 + 2 *
    (if (endOfRun c).fault = .none ∨ (endOfRun c).fault = .programOutOfBounds then (endOfRun c).pc
      else (endOfRun c).pc - 1)

/-- The clocked rendering refines the step (50_interfaces.md section 2, the spec's own choice D11; one iteration for each edge
is assumption 14): with a ROM that answers the address, an edge without reset is one step, and an edge with reset is the
reset. -/
def Obligations.ClockedMachineRefinesTheStep : Prop :=
  (∀ (s : State) (i : InPorts), romAnswers s i → i.rst = false → s.clockEdge i = s.after (step s)) ∧
  (∀ (s : State) (i : InPorts), i.rst = true → s.clockEdge i = State.construct s.config) ∧
  (∀ (s : State) (i : InPorts), romAnswers s i →
    (s.retire i = true ↔ i.rst = false ∧ s.pc < s.config.program.length ∧ ∃ t, step s = .next t ∧ t.fault = .none))
end

