-- ==== Sys2Proof/Laws/Decode.lean ====
section
/-! SUPPORT. The fields of a word put together from an opcode and twelve low bits, and of those bits put together from operands. -/

namespace Sys2Proof

/-- The decoder's fields of a word given as opcode and low bits. -/
theorem decodeFields_append (op : Nibble) (low : BitVec 12) :
    decodeFields (op ++ low) =
      ⟨op, low.extractLsb' 8 4, low.extractLsb' 4 4, low.extractLsb' 0 4, low.extractLsb' 0 8⟩ := by
  have h0 : (decodeFields (op ++ low)).opcode = op := BitVec.extractLsb'_append_eq_left
  have h1 : (decodeFields (op ++ low)).operand1 = low.extractLsb' 8 4 := BitVec.extractLsb'_append_eq_of_add_le (by decide)
  have h2 : (decodeFields (op ++ low)).operand2 = low.extractLsb' 4 4 := BitVec.extractLsb'_append_eq_of_add_le (by decide)
  have h3 : (decodeFields (op ++ low)).operand3 = low.extractLsb' 0 4 := BitVec.extractLsb'_append_eq_of_add_le (by decide)
  have h4 : (decodeFields (op ++ low)).immediate = low.extractLsb' 0 8 := BitVec.extractLsb'_append_eq_of_add_le (by decide)
  rw [← h1, ← h2, ← h3, ← h4]
  exact congrArg (fun o => Decoded.mk o _ _ _ _) h0

/-- The three operand fields of twelve bits make them up. -/
theorem low_eq_fields (low : BitVec 12) :
    low.extractLsb' 8 4 ++ low.extractLsb' 4 4 ++ low.extractLsb' 0 4 = low := by
  rw [BitVec.extractLsb'_append_extractLsb'_eq_extractLsb' (by decide),
    BitVec.extractLsb'_append_extractLsb'_eq_extractLsb' (by decide)]
  exact BitVec.extractLsb'_eq_self

/-- A word is its opcode field and its low bits put together. -/
theorem word_eq_append (w : Word) : w.extractLsb' 12 4 ++ w.extractLsb' 0 12 = w := by
  rw [BitVec.extractLsb'_append_extractLsb'_eq_extractLsb' (by decide)]
  exact BitVec.extractLsb'_eq_self

/-- The operand fields of the twelve bits of an `I` form (R64). -/
theorem fields_of_formI (d : Nibble) (imm : Immediate) :
    (d ++ imm : BitVec 12).extractLsb' 8 4 = d ∧ (d ++ imm : BitVec 12).extractLsb' 0 8 = imm := by
  refine ⟨BitVec.extractLsb'_append_eq_left, ?_⟩
  have h := BitVec.extractLsb'_append_eq_of_add_le (xhi := d) (xlo := imm) (start := 0) (len := 8) (by decide)
  exact h.trans BitVec.extractLsb'_eq_self

/-- The operand fields of the twelve bits of an `R` form (R64). -/
theorem fields_of_formR (d a b : Nibble) :
    (d ++ a ++ b : BitVec 12).extractLsb' 8 4 = d ∧ (d ++ a ++ b : BitVec 12).extractLsb' 4 4 = a ∧
      (d ++ a ++ b : BitVec 12).extractLsb' 0 4 = b := by
  have h0 := BitVec.extractLsb'_append_eq_of_add_le (xhi := d ++ a) (xlo := b) (start := 0) (len := 4) (by decide)
  have h1 := BitVec.extractLsb'_append_eq_of_le (xhi := d ++ a) (xlo := b) (start := 4) (len := 4) (by decide)
  have h2 := BitVec.extractLsb'_append_eq_of_le (xhi := d ++ a) (xlo := b) (start := 8) (len := 4) (by decide)
  refine ⟨h2.trans BitVec.extractLsb'_append_eq_left, h1.trans ?_, h0.trans BitVec.extractLsb'_eq_self⟩
  exact (BitVec.extractLsb'_append_eq_of_add_le (by decide)).trans BitVec.extractLsb'_eq_self

end Sys2Proof
end

