-- ==== Sys2Proof/Laws/State.lean ====
section
/-! SUPPORT. One lemma per field per update of State, so that no later proof unfolds a record update. -/

namespace Sys2Proof.Machine

variable (s : State) (r : Fin 4) (v : Int) (c : Cause) (w : Word) (k : Config)

@[simp] theorem State.writeReg_x : (s.writeReg r v).x = s.x.set r v := rfl
@[simp] theorem State.writeReg_pc : (s.writeReg r v).pc = s.pc := rfl
@[simp] theorem State.writeReg_running : (s.writeReg r v).running = s.running := rfl
@[simp] theorem State.writeReg_fault : (s.writeReg r v).fault = s.fault := rfl
@[simp] theorem State.writeReg_config : (s.writeReg r v).config = s.config := rfl

@[simp] theorem State.advancePc_x : s.advancePc.x = s.x := rfl
@[simp] theorem State.advancePc_pc : s.advancePc.pc = s.pc + 1 := rfl
@[simp] theorem State.advancePc_running : s.advancePc.running = s.running := rfl
@[simp] theorem State.advancePc_fault : s.advancePc.fault = s.fault := rfl
@[simp] theorem State.advancePc_config : s.advancePc.config = s.config := rfl

@[simp] theorem State.raise_x : (s.raise c).x = s.x := rfl
@[simp] theorem State.raise_pc : (s.raise c).pc = s.pc := rfl
@[simp] theorem State.raise_running : (s.raise c).running = s.running := rfl
@[simp] theorem State.raise_fault : (s.raise c).fault = c := rfl
@[simp] theorem State.raise_config : (s.raise c).config = s.config := rfl

@[simp] theorem State.clearRunning_x : s.clearRunning.x = s.x := rfl
@[simp] theorem State.clearRunning_pc : s.clearRunning.pc = s.pc := rfl
@[simp] theorem State.clearRunning_running : s.clearRunning.running = false := rfl
@[simp] theorem State.clearRunning_fault : s.clearRunning.fault = s.fault := rfl
@[simp] theorem State.clearRunning_config : s.clearRunning.config = s.config := rfl

@[simp] theorem State.placeWord_x : (s.placeWord w).x = s.x := rfl
@[simp] theorem State.placeWord_pc : (s.placeWord w).pc = s.pc := rfl
@[simp] theorem State.placeWord_running : (s.placeWord w).running = true := rfl
@[simp] theorem State.placeWord_fault : (s.placeWord w).fault = .none := rfl
@[simp] theorem State.placeWord_config : (s.placeWord w).config = { s.config with program := storeWithWordAt s.config.program s.pc w } := rfl

@[simp] theorem State.reinit_x : s.reinit.x = #v[0, 0, 0, 0] := rfl
@[simp] theorem State.reinit_pc : s.reinit.pc = 0 := rfl
@[simp] theorem State.reinit_running : s.reinit.running = true := rfl
@[simp] theorem State.reinit_fault : s.reinit.fault = .none := rfl
@[simp] theorem State.reinit_config : s.reinit.config = s.config := rfl

@[simp] theorem State.construct_x : (State.construct k).x = #v[0, 0, 0, 0] := rfl
@[simp] theorem State.construct_pc : (State.construct k).pc = 0 := rfl
@[simp] theorem State.construct_running : (State.construct k).running = true := rfl
@[simp] theorem State.construct_fault : (State.construct k).fault = .none := rfl
@[simp] theorem State.construct_config : (State.construct k).config = k := rfl

theorem State.readReg_eq (s : State) (r : Fin 4) : s.readReg r = s.x[r] := rfl

@[simp] theorem State.readReg_writeReg_same : (s.writeReg r v).readReg r = v := by
  simp [State.readReg]

theorem State.readReg_writeReg_ne (q : Fin 4) (h : q ≠ r) : (s.writeReg r v).readReg q = s.readReg q := by
  have : r.val ≠ q.val := fun e => h (Fin.ext e.symm)
  simp [State.readReg, this]

@[simp] theorem State.readReg_advancePc : s.advancePc.readReg r = s.readReg r := rfl
@[simp] theorem State.readReg_raise : (s.raise c).readReg r = s.readReg r := rfl
@[simp] theorem State.readReg_clearRunning : s.clearRunning.readReg r = s.readReg r := rfl

theorem State.readReg_construct : (State.construct k).readReg r = 0 := by
  match r with
  | 0 => rfl
  | 1 => rfl
  | 2 => rfl
  | 3 => rfl

/-- Reading is all there is to a register file: two states agree on it when they agree on every cell. -/
theorem State.x_ext (s t : State) (h : ∀ r, s.readReg r = t.readReg r) : s.x = t.x :=
  Vector.ext fun i hi => h ⟨i, hi⟩

theorem State.loopState_running_iff : s.loopState = .running ↔ s.running = true ∧ s.fault = .none := by
  unfold State.loopState; split <;> (try split) <;> simp_all

theorem State.loopState_faulted_iff : s.loopState = .faulted ↔ s.running = true ∧ s.fault ≠ .none := by
  unfold State.loopState; split <;> (try split) <;> simp_all

theorem State.loopState_halted_iff : s.loopState = .halted ↔ s.running = false := by
  unfold State.loopState; split <;> (try split) <;> simp_all

/-- The test of R159 is the loop state's. -/
theorem State.stopped_iff : s.stopped = true ↔ s.loopState ≠ .running := by
  rw [Ne, State.loopState_running_iff]
  cases h : s.running <;> simp [State.stopped, h]

end Sys2Proof.Machine
end

