-- ==== Sys2Proof/Laws/Ops.lean ====
section
/-! SUPPORT. For each shared operation the lemma that says what it can do, to be cited in place of unfolding it. -/

namespace Sys2Proof.Machine

/-! ### Numbers -/

theorem wrapN_inRange (n : Nat) (hn : 1 ≤ n) (z : Int) : -(2 ^ (n - 1)) ≤ wrapN n z ∧ wrapN n z < 2 ^ (n - 1) := by
  obtain ⟨m, rfl⟩ := Nat.exists_eq_add_of_le' hn
  have hp : 0 < 2 ^ (m + 1) := by positivity
  have h1 := Int.le_bmod (x := z) hp
  have h2 := Int.bmod_lt (x := z) hp
  have e : ((2 ^ (m + 1) : Nat) : Int) = 2 * 2 ^ m := by push_cast; ring
  simp only [wrapN, Nat.add_sub_cancel]
  generalize Int.bmod z (2 ^ (m + 1)) = b at *
  rw [e] at h1 h2
  generalize (2 : Int) ^ m = p at *
  omega

theorem wrapN_eq_add_mul (n : Nat) (z : Int) : ∃ k : Int, wrapN n z = z + k * 2 ^ n := by
  obtain ⟨k, hk⟩ := Int.dvd_bmod_sub_self (x := z) (m := 2 ^ n)
  refine ⟨k, ?_⟩
  push_cast at hk
  simp only [wrapN]
  linarith

/-- `wrap_N` leaves a number that fits as it is. -/
theorem wrapN_of_inRange (n : Nat) (hn : 1 ≤ n) (z : Int) (h1 : -(2 ^ (n - 1)) ≤ z) (h2 : z < 2 ^ (n - 1)) :
    wrapN n z = z := by
  obtain ⟨m, rfl⟩ := Nat.exists_eq_add_of_le' hn
  simp only [Nat.add_sub_cancel] at h1 h2
  have e : ((2 ^ (m + 1) : Nat) : Int) = 2 * 2 ^ m := by push_cast; ring
  apply Int.bmod_eq_of_le <;> rw [e] <;> generalize (2 : Int) ^ m = p at * <;> omega

/-- `wrap_N` is reading an N-bit pattern as a signed number. -/
theorem wrapN_eq_toInt (n : Nat) (z : Int) : wrapN n z = (BitVec.ofInt n z).toInt := by
  rw [BitVec.toInt_ofInt]; rfl

theorem zextN_eq (n : Nat) (hn : 9 ≤ n) (v : Immediate) : zextN n v = v.toNat := by
  have hv := v.isLt
  have hp : 2 ^ 9 ≤ 2 ^ n := Nat.pow_le_pow_right (by omega) hn
  rw [zextN, BitVec.toInt_eq_toNat_of_lt]
  · rw [BitVec.toNat_setWidth_of_le (by omega)]
  · rw [BitVec.toNat_setWidth_of_le (by omega)]; omega

/-! ### Register-index fields -/

theorem regIndex?_eq_some_iff (f : Nibble) (r : Fin 4) : regIndex? f = some r ↔ f.toNat = r.val := by
  unfold regIndex?
  split
  · simp [Fin.ext_iff]
  · have := r.isLt
    simp; omega

theorem regIndex?_eq_none_iff (f : Nibble) : regIndex? f = none ↔ 4 ≤ f.toNat := by
  unfold regIndex?
  split <;> simp <;> omega

theorem regIndex?_of_lt (f : Nibble) (h : f.toNat < 4) : regIndex? f = some ⟨f.toNat, h⟩ := by
  simp [regIndex?, h]

/-- The register-file ports are given the same index (R132). -/
theorem portIndex?_eq (f : Nibble) : portIndex? f = (regIndex? f).map fun r => BitVec.ofNat 2 r.val := by
  revert f; decide

/-! ### The program store and the fetch -/

theorem State.memRead_eq_some_iff (s : State) (a : Nat) (w : Word) :
    s.memRead a = some w ↔ ∃ h : a < s.config.program.length, s.config.program[a] = w :=
  List.getElem?_eq_some_iff

theorem State.memRead_eq_none_iff (s : State) (a : Nat) : s.memRead a = none ↔ s.config.length ≤ a :=
  List.getElem?_eq_none_iff

/-- What a fetch can do: return the addressed word and advance, or return none and raise. -/
theorem State.fetch_cases (s : State) :
    (∃ w, s.memRead s.pc = some w ∧ s.fetch = (some w, s.advancePc)) ∨
    (s.memRead s.pc = none ∧ s.fetch = (none, s.raise .programOutOfBounds)) := by
  unfold State.fetch
  cases h : s.memRead s.pc <;> simp

theorem storeWithWordAt_getElem? (p : List Word) (k : Nat) (w : Word) : (storeWithWordAt p k w)[k]? = some w := by
  have : (p.take k ++ List.replicate (k - p.length) (0 : Word)).length = k := by simp; omega
  rw [storeWithWordAt, List.getElem?_append_right (by omega), this]
  simp

/-- The placed word is what the next fetch reads. -/
theorem State.memRead_placeWord (s : State) (w : Word) : (s.placeWord w).memRead s.pc = some w :=
  storeWithWordAt_getElem? _ _ _

/-- The program store has one form: two stores that read alike at every index are the same list. -/
theorem programStore_ext (p q : List Word) (h : ∀ k : Nat, p[k]? = q[k]?) : p = q := List.ext_getElem? h

/-! ### The unrecognized opcodes -/

theorem State.unrecognized_cases (s : State) :
    (s.config.strictOpcode = true ∧ s.unrecognized = .next (s.raise .invalidOpcode)) ∨
    (s.config.strictOpcode = false ∧ s.unrecognized = .next s) := by
  unfold State.unrecognized
  cases s.config.strictOpcode <;> simp

end Sys2Proof.Machine
end

