-- ==== Sys2Proof/Laws/Exec.lean ====
section
/-! SUPPORT. What each meaning and each step can do, said once: the inversion lemmas that later proofs start from. -/

namespace Sys2Proof.Machine

/-- What `loadi` can do: write one cell, or raise `InvalidRegister`. -/
theorem execLoadi_cases (d : Nibble) (imm : Immediate) (s : State) :
    (∃ r : Fin 4, d.toNat = r.val ∧ execLoadi d imm s = .next (s.writeReg r (zextN s.config.width imm))) ∨
    (4 ≤ d.toNat ∧ execLoadi d imm s = .next (s.raise .invalidRegister)) := by
  unfold execLoadi
  cases h : regIndex? d with
  | some r => exact .inl ⟨r, (regIndex?_eq_some_iff d r).1 h, rfl⟩
  | none => exact .inr ⟨(regIndex?_eq_none_iff d).1 h, rfl⟩

/-- What `add` can do: write one cell, or raise `InvalidRegister` because some field names no register. -/
theorem execAdd_cases (d a b : Nibble) (s : State) :
    (∃ rd ra rb : Fin 4, d.toNat = rd.val ∧ a.toNat = ra.val ∧ b.toNat = rb.val ∧
      execAdd d a b s = .next (s.writeReg rd (wrapN s.config.width (s.readReg ra + s.readReg rb)))) ∨
    ((4 ≤ d.toNat ∨ 4 ≤ a.toNat ∨ 4 ≤ b.toNat) ∧ execAdd d a b s = .next (s.raise .invalidRegister)) := by
  unfold execAdd
  cases hd : regIndex? d with
  | none => exact .inr ⟨.inl ((regIndex?_eq_none_iff d).1 hd), rfl⟩
  | some rd =>
    cases ha : regIndex? a with
    | none => exact .inr ⟨.inr (.inl ((regIndex?_eq_none_iff a).1 ha)), rfl⟩
    | some ra =>
      cases hb : regIndex? b with
      | none => exact .inr ⟨.inr (.inr ((regIndex?_eq_none_iff b).1 hb)), rfl⟩
      | some rb =>
        exact .inl ⟨rd, ra, rb, (regIndex?_eq_some_iff d rd).1 hd, (regIndex?_eq_some_iff a ra).1 ha,
          (regIndex?_eq_some_iff b rb).1 hb, rfl⟩

/-- What a step can do: it is one evaluation of the fetched word, or it raises `ProgramOutOfBounds`. -/
theorem step_cases {s t : State} (h : step s = .next t) :
    s.running = true ∧ s.fault = .none ∧
    ((∃ w, s.memRead s.pc = some w ∧ exec (decode w) s.advancePc = .next t) ∨
      (s.memRead s.pc = none ∧ t = s.raise .programOutOfBounds)) := by
  unfold step State.iteration at h
  cases hl : s.loopState with
  | halted => simp [hl] at h
  | faulted => simp [hl] at h
  | running =>
    obtain ⟨hr, hf⟩ := s.loopState_running_iff.1 hl
    refine ⟨hr, hf, ?_⟩
    simp only [hl] at h
    obtain ⟨w, hw, e⟩ | ⟨hn, e⟩ := s.fetch_cases <;> rw [e] at h
    · exact .inl ⟨w, hw, h⟩
    · exact .inr ⟨hn, (Host.Outcome.next.inj h).symm⟩

/-- In state Running there is a step, and which one it is depends on the fetch alone. -/
theorem step_of_running {s : State} (h : s.loopState = .running) :
    step s = s.fetch.1.elim (.next s.fetch.2) fun w => exec (decode w) s.fetch.2 := by
  unfold step State.iteration
  rw [h]
  obtain ⟨w, t⟩ := s.fetch
  cases w <;> rfl

/-- A stopped machine has no step, and what follows it is itself. -/
theorem after_step_of_stopped {s : State} (h : s.stopped = true) : s.after (step s) = s := by
  have hl := s.stopped_iff.1 h
  unfold step State.iteration
  cases e : s.loopState with
  | running => exact absurd e hl
  | halted => rfl
  | faulted => rfl

end Sys2Proof.Machine
end

