-- ==== Sys2Proof/Laws/PerInstr.lean ====
section
/-! SUPPORT. The statements about every instruction as syntax, one lemma per constructor. -/

namespace Sys2Proof.Laws.OpcodeField

/-- The word of an instruction belongs to the instruction's own row of the opcode table: `word & mask = match` (R65). -/
def Statement (i : Instr) : Prop := encode i &&& 0xF000#16 = i.opcode.setWidth 16 <<< 12

/-- The table's mask keeps the opcode field and drops the low 12 bits. -/
theorem mask_append (op : Nibble) (low : BitVec 12) : (op ++ low) &&& 0xF000#16 = op.setWidth 16 <<< 12 := by
  have e : (0xF000#16 : BitVec (4 + 12)) = (15#4 ++ 0#12) := by decide
  rw [show (op ++ low) &&& 0xF000#16 = (op ++ low) &&& (15#4 ++ 0#12) from congrArg _ e, BitVec.and_append, BitVec.and_zero]
  revert op; decide

theorem halt : Statement .halt := mask_append _ _

theorem loadi (d : Nibble) (imm : Immediate) : Statement (.loadi d imm) := mask_append _ _

theorem add (d a b : Nibble) : Statement (.add d a b) := mask_append _ _

theorem unrec3 (ignored : BitVec 12) : Statement (.unrec3 ignored) := mask_append _ _

theorem unrec4 (ignored : BitVec 12) : Statement (.unrec4 ignored) := mask_append _ _

theorem unrec5 (ignored : BitVec 12) : Statement (.unrec5 ignored) := mask_append _ _

theorem unrec6 (ignored : BitVec 12) : Statement (.unrec6 ignored) := mask_append _ _

theorem unrec7 (ignored : BitVec 12) : Statement (.unrec7 ignored) := mask_append _ _

theorem unrec8 (ignored : BitVec 12) : Statement (.unrec8 ignored) := mask_append _ _

theorem unrec9 (ignored : BitVec 12) : Statement (.unrec9 ignored) := mask_append _ _

theorem unrec10 (ignored : BitVec 12) : Statement (.unrec10 ignored) := mask_append _ _

theorem unrec11 (ignored : BitVec 12) : Statement (.unrec11 ignored) := mask_append _ _

theorem unrec12 (ignored : BitVec 12) : Statement (.unrec12 ignored) := mask_append _ _

theorem unrec13 (ignored : BitVec 12) : Statement (.unrec13 ignored) := mask_append _ _

theorem unrec14 (ignored : BitVec 12) : Statement (.unrec14 ignored) := mask_append _ _

theorem unrec15 (ignored : BitVec 12) : Statement (.unrec15 ignored) := mask_append _ _

end Sys2Proof.Laws.OpcodeField
end

