-- ==== Sys2Proof/Tests/Slice0.lean ====
section
/-! SUPPORT. The model's own tests: expected values from spec/95_test_vectors.md or worked out by hand from the rules, and a witness for the hypotheses of every statement. -/

namespace Sys2Proof.Tests

open Sys2Proof.Machine

/-! ### Helpers -/

/-- A machine that is Running, lenient, with N = 32 unless changed. -/
def st (x : Vector Int 4) (pc : Nat) (program : List Word) : State :=
  ⟨x, pc, true, .none, ⟨32, program, false⟩⟩

/-- The same with registers of `n` bits. -/
def stN (n : Nat) (x : Vector Int 4) : State := ⟨x, 1, true, .none, ⟨n, [0], false⟩⟩

/-- The same with strict opcodes. -/
def stStrict (x : Vector Int 4) (pc : Nat) (program : List Word) : State :=
  ⟨x, pc, true, .none, ⟨32, program, true⟩⟩

/-- The outcome is a next state, this one. -/
def isNext (o : Host.Outcome State Fault Refusal) (t : State) : Bool :=
  match o with
  | .next u => decide (u = t)
  | .fault _ => false
  | .refused _ => false

/-- The outcome is the end of the run by this name. -/
def isFault (o : Host.Outcome State Fault Refusal) (f : Fault) : Bool :=
  match o with
  | .next _ => false
  | .fault g => decide (g = f)
  | .refused _ => false

/-! ### Decoding: words written out bit by bit from the tables of R61 and R65 -/

theorem test_decode_defined :
    decode 0b0000000000000000 = .halt ∧ decode 0b0000101010111100 = .halt ∧
    decode 0b0001000001100100 = .loadi 0 100 ∧ decode 0b0001000111001000 = .loadi 1 200 ∧
    decode 0b0001010100000010 = .loadi 5 2 ∧
    decode 0b0010001000000001 = .add 2 0 1 ∧ decode 0b0010000000010100 = .add 0 1 4 := by decide

theorem test_decode_unrecognized_low :
    decode 0b0011101010111100 = .unrec3 0b101010111100 ∧ decode 0b0100000000000000 = .unrec4 0 ∧
    decode 0b0101000000000001 = .unrec5 1 ∧ decode 0b0110000000000010 = .unrec6 2 ∧
    decode 0b0111111110000000 = .unrec7 0b111110000000 ∧ decode 0b1000000000000001 = .unrec8 1 ∧
    decode 0b1001000000000000 = .unrec9 0 := by decide

theorem test_decode_unrecognized_high :
    decode 0b1010010111000011 = .unrec10 0b010111000011 ∧ decode 0b1011000000000000 = .unrec11 0 ∧
    decode 0b1100000000000000 = .unrec12 0 ∧ decode 0b1101000000000000 = .unrec13 0 ∧
    decode 0b1110000000000000 = .unrec14 0 ∧ decode 0b1111111111111111 = .unrec15 0b111111111111 := by decide

/-- 95_test_vectors.md 2.1, the rows of 0x11C8 and 0xA5C3. -/
theorem test_decode_fields :
    decodeFields 0x11C8 = ⟨1, 1, 12, 8, 200⟩ ∧ decodeFields 0xA5C3 = ⟨10, 5, 12, 3, 195⟩ := by decide

/-- 95_test_vectors.md 2.2. -/
theorem test_encode :
    encode .halt = 0x0000 ∧ encode (.loadi 3 255) = 0x13FF ∧ encode (.loadi 2 16) = 0x1210 ∧
    encode (.add 3 2 1) = 0x2321 ∧ encode (.add 1 3 3) = 0x2133 := by decide

/-- 95_test_vectors.md 2.2: the lines an assembler refuses, and one for each check of `AsmLine.legal`. -/
theorem test_assembler_refuses :
    (AsmLine.loadi 4 1).assemble = none ∧ (AsmLine.loadi 0 256).assemble = none ∧ (AsmLine.loadi 0 (-1)).assemble = none ∧
    (AsmLine.add 0 1 4).assemble = none ∧ (AsmLine.add 0 4 1).assemble = none ∧ (AsmLine.add 4 0 1).assemble = none ∧
    (AsmLine.loadi 1 200).assemble = some 0x11C8 ∧ (AsmLine.add 2 0 1).assemble = some 0x2201 ∧
    AsmLine.halt.assemble = some 0x0000 := by decide

/-- Each check of well-formedness refuses a term that breaks it alone. -/
theorem test_wellFormed_smoke :
    (Instr.loadi 4 0).wellFormed = false ∧ (Instr.add 4 0 0).wellFormed = false ∧ (Instr.add 0 4 0).wellFormed = false ∧
    (Instr.add 0 0 4).wellFormed = false ∧ (Instr.loadi 3 0xC8).wellFormed = true ∧ (Instr.add 3 3 3).wellFormed = true ∧
    (Config.mk 9 [] false).wellFormed = false ∧ (Config.mk 10 [] false).wellFormed = true := by decide

/-- The opcode table's words through the host's entry point, and what is no instruction word. -/
theorem test_decodeTableWord :
    decodeTableWord 16 0x2201 = some (.add 2 0 1) ∧ decodeTableWord 8 0xFF = some .halt ∧
    decodeTableWord 16 0x10000 = none ∧ decodeTableWord 32 0x2201 = none := by decide

/-- 70_reset_and_hazards.md R185: the reference program halts at index 3; an illegal index, an unrecognized word before the
first `halt`, and a missing `halt` are refused. -/
theorem test_programWellFormed :
    haltsAt referenceProgram 3 = true ∧ programWellFormed referenceProgram = true ∧
    programWellFormed [0x1502, 0x0000] = false ∧ programWellFormed [0x2014, 0x0000] = false ∧
    programWellFormed [0x3ABC, 0x0000] = false ∧ programWellFormed [0x1064] = false ∧ programWellFormed [] = false := by decide

/-! ### One step of each instruction (95_test_vectors.md 2.3 to 2.7) -/

theorem test_halt_noncanonical :
    isNext (step (st #v[-5, 0, 0, 9] 0 [0x0FFF])) { st #v[-5, 0, 0, 9] 1 [0x0FFF] with running := false } = true := by decide

theorem test_loadi_is_unsigned :
    isNext (step (st #v[7, 8, 9, 10] 0 [0x13FF])) (st #v[7, 8, 9, 255] 1 [0x13FF]) = true := by decide

theorem test_loadi_bad_register :
    isNext (step (st #v[7, 8, 9, 10] 0 [0x1400])) { st #v[7, 8, 9, 10] 1 [0x1400] with fault := .invalidRegister } = true := by
  decide

theorem test_add_wraps :
    isNext (step (st #v[2139095040, 0, 0, 0] 0 [0x2000])) (st #v[-16777216, 0, 0, 0] 1 [0x2000]) = true ∧
    isNext (execAdd 0 0 0 (stN 10 #v[300, 0, 0, 0])) (stN 10 #v[-424, 0, 0, 0]) = true ∧
    isNext (execAdd 2 0 1 (stN 64 #v[9223372036854775807, 1, 0, 0]))
      (stN 64 #v[9223372036854775807, 1, -9223372036854775808, 0]) = true := by decide

theorem test_add_bad_source_writes_nothing :
    isNext (step (st #v[1, 2, 3, 4] 0 [0x2014])) { st #v[1, 2, 3, 4] 1 [0x2014] with fault := .invalidRegister } = true := by
  decide

theorem test_unrecognized_lenient :
    isNext (step (st #v[5, 0, 0, 0] 1 [0, 0x3ABC])) (st #v[5, 0, 0, 0] 2 [0, 0x3ABC]) = true ∧
    isNext (step (st #v[5, 0, 0, 0] 1 [0, 0x4000])) (st #v[5, 0, 0, 0] 2 [0, 0x4000]) = true ∧
    isNext (step (st #v[5, 0, 0, 0] 1 [0, 0x5000])) (st #v[5, 0, 0, 0] 2 [0, 0x5000]) = true ∧
    isNext (step (st #v[5, 0, 0, 0] 1 [0, 0x6000])) (st #v[5, 0, 0, 0] 2 [0, 0x6000]) = true ∧
    isNext (step (st #v[5, 0, 0, 0] 1 [0, 0x7F80])) (st #v[5, 0, 0, 0] 2 [0, 0x7F80]) = true ∧
    isNext (step (st #v[5, 0, 0, 0] 1 [0, 0x8001])) (st #v[5, 0, 0, 0] 2 [0, 0x8001]) = true ∧
    isNext (step (st #v[5, 0, 0, 0] 1 [0, 0x9000])) (st #v[5, 0, 0, 0] 2 [0, 0x9000]) = true ∧
    isNext (step (st #v[5, 0, 0, 0] 1 [0, 0xA5C3])) (st #v[5, 0, 0, 0] 2 [0, 0xA5C3]) = true ∧
    isNext (step (st #v[5, 0, 0, 0] 1 [0, 0xB000])) (st #v[5, 0, 0, 0] 2 [0, 0xB000]) = true ∧
    isNext (step (st #v[5, 0, 0, 0] 1 [0, 0xC000])) (st #v[5, 0, 0, 0] 2 [0, 0xC000]) = true ∧
    isNext (step (st #v[5, 0, 0, 0] 1 [0, 0xD000])) (st #v[5, 0, 0, 0] 2 [0, 0xD000]) = true ∧
    isNext (step (st #v[5, 0, 0, 0] 1 [0, 0xE000])) (st #v[5, 0, 0, 0] 2 [0, 0xE000]) = true ∧
    isNext (step (st #v[5, 0, 0, 0] 1 [0, 0xFFFF])) (st #v[5, 0, 0, 0] 2 [0, 0xFFFF]) = true := by decide +kernel

theorem test_unrecognized_strict :
    isNext (step (stStrict #v[5, 0, 0, 0] 1 [0, 0x3ABC]))
      { stStrict #v[5, 0, 0, 0] 2 [0, 0x3ABC] with fault := .invalidOpcode } = true ∧
    isNext (step (stStrict #v[5, 0, 0, 0] 1 [0, 0x4000]))
      { stStrict #v[5, 0, 0, 0] 2 [0, 0x4000] with fault := .invalidOpcode } = true ∧
    isNext (step (stStrict #v[5, 0, 0, 0] 1 [0, 0x5000]))
      { stStrict #v[5, 0, 0, 0] 2 [0, 0x5000] with fault := .invalidOpcode } = true ∧
    isNext (step (stStrict #v[5, 0, 0, 0] 1 [0, 0x6000]))
      { stStrict #v[5, 0, 0, 0] 2 [0, 0x6000] with fault := .invalidOpcode } = true ∧
    isNext (step (stStrict #v[5, 0, 0, 0] 1 [0, 0x7F80]))
      { stStrict #v[5, 0, 0, 0] 2 [0, 0x7F80] with fault := .invalidOpcode } = true ∧
    isNext (step (stStrict #v[5, 0, 0, 0] 1 [0, 0x8001]))
      { stStrict #v[5, 0, 0, 0] 2 [0, 0x8001] with fault := .invalidOpcode } = true ∧
    isNext (step (stStrict #v[5, 0, 0, 0] 1 [0, 0x9000]))
      { stStrict #v[5, 0, 0, 0] 2 [0, 0x9000] with fault := .invalidOpcode } = true ∧
    isNext (step (stStrict #v[5, 0, 0, 0] 1 [0, 0xA5C3]))
      { stStrict #v[5, 0, 0, 0] 2 [0, 0xA5C3] with fault := .invalidOpcode } = true ∧
    isNext (step (stStrict #v[5, 0, 0, 0] 1 [0, 0xB000]))
      { stStrict #v[5, 0, 0, 0] 2 [0, 0xB000] with fault := .invalidOpcode } = true ∧
    isNext (step (stStrict #v[5, 0, 0, 0] 1 [0, 0xC000]))
      { stStrict #v[5, 0, 0, 0] 2 [0, 0xC000] with fault := .invalidOpcode } = true ∧
    isNext (step (stStrict #v[5, 0, 0, 0] 1 [0, 0xD000]))
      { stStrict #v[5, 0, 0, 0] 2 [0, 0xD000] with fault := .invalidOpcode } = true ∧
    isNext (step (stStrict #v[5, 0, 0, 0] 1 [0, 0xE000]))
      { stStrict #v[5, 0, 0, 0] 2 [0, 0xE000] with fault := .invalidOpcode } = true ∧
    isNext (step (stStrict #v[5, 0, 0, 0] 1 [0, 0xFFFF]))
      { stStrict #v[5, 0, 0, 0] 2 [0, 0xFFFF] with fault := .invalidOpcode } = true := by decide +kernel

/-- 95_test_vectors.md P6: the empty program. -/
theorem test_fetch_past_end :
    isNext (step (st #v[0, 0, 0, 0] 0 [])) { st #v[0, 0, 0, 0] 0 [] with fault := .programOutOfBounds } = true := by decide

/-- 95_test_vectors.md 2.8: the loop states, and no step in Halted and Faulted. -/
theorem test_stopped_machine :
    isFault (step { State.reset with running := false }) .halted = true ∧
    isFault (step { State.reset with fault := .invalidRegister }) .faulted = true ∧
    ({ State.reset with running := false } : State).stopped = true ∧
    ({ State.reset with fault := .invalidOpcode } : State).stopped = true ∧ State.reset.stopped = false := by decide

/-- 95_test_vectors.md 2.9, its first row. -/
theorem test_reinit :
    ({ st #v[100, 200, 300, 0] 4 referenceProgram with running := false } : State).reinit = State.reset := by decide

/-- The word placed for the next fetch is the one the next step runs, at reset, past the end, and in a stopped machine. -/
theorem test_withFetchWord :
    isNext (step (State.reset.withFetchWord 16 0x1307))
      (st #v[0, 0, 0, 7] 1 [0x1307, 0x11C8, 0x2201, 0x0000]) = true ∧
    isNext (step (({ st #v[0, 0, 0, 0] 2 [0x1064] with running := false } : State).withFetchWord 16 0x1307))
      (st #v[0, 0, 0, 7] 3 [0x1064, 0x0000, 0x1307]) = true := by decide

/-! ### Observation, trace and ports -/

/-- 95_test_vectors.md 2.10 and S5. -/
theorem test_hex4 :
    snapshot (st #v[255, 10, 4096, 65535] 0 []) = "regs = 00FF 000A 1000 FFFF" ∧ wordText 0x11C8 = "11C8" := by decide

/-- 95_test_vectors.md S4: the lines of the second and third steps of the reference run. -/
theorem test_iteration_lines :
    iterationLines (st #v[100, 0, 0, 0] 1 referenceProgram) = ["loadi r1 #200", "regs = 0064 00C8 0000 0000"] ∧
    iterationLines (st #v[100, 200, 0, 0] 2 referenceProgram) = ["add r2 r0 r1", "regs = 0064 00C8 012C 0000"] := by decide

/-- S4's last step, 44_unrecognized.md's lenient example, and a faulting iteration (P4a). -/
theorem test_iteration_lines_other :
    iterationLines (st #v[100, 200, 300, 0] 3 referenceProgram) = ["halt", "regs = 0064 00C8 012C 0000"] ∧
    iterationLines (st #v[5, 0, 0, 0] 1 [0, 0x3ABC]) = ["oops", "regs = 0005 0000 0000 0000"] ∧
    iterationLines (st #v[1, 0, 0, 0] 1 [0x1001, 0x1502, 0x0000]) = [] := by decide

theorem test_ports :
    State.outPorts 3 (st #v[-1, 200, 300, 0] 4 referenceProgram) =
      ⟨4, true, 0, false, 0xFFFFFFFF, 200, 300, 0, 4⟩ ∧
    (State.reset.clockEdge ⟨false, 0x1064⟩) = st #v[100, 0, 0, 0] 1 referenceProgram ∧
    (st #v[9, 9, 9, 9] 2 referenceProgram).clockEdge ⟨true, 0⟩ = State.reset ∧
    State.reset.retire ⟨false, 0x1064⟩ = true ∧ State.reset.retire ⟨true, 0x1064⟩ = false ∧
    State.reset.retire ⟨false, 0x1502⟩ = false ∧
    (st #v[1, 2, 3, 4] 0 []).observe = ⟨#v[1, 2, 3, 4], 0, true, 0⟩ := by decide

/-! ### Witnesses: for each statement with hypotheses, operands and a state that meet them, at the ends of their ranges -/

theorem witness_OpcodeAloneSelectsTheInstruction :
    (decodeFields 0x0FFF).opcode = 0 ∧ (decodeFields 0x1FFF).opcode = 1 ∧ (decodeFields 0x2FFF).opcode = 2 ∧
    3 ≤ (decodeFields 0x3000).opcode.toNat ∧ 3 ≤ (decodeFields 0xFFFF).opcode.toNat := by decide

theorem witness_AssemblerAcceptsTheLegalLines :
    (AsmLine.loadi 3 255).legal = true ∧ (AsmLine.loadi 0 0).legal = true ∧ (AsmLine.add 3 3 3).legal = true ∧
    (AsmLine.loadi 3 256).legal = false ∧ (AsmLine.add 3 3 4).legal = false := by decide

theorem witness_FetchReturnsTheWordAndAdvances :
    (st #v[0, 0, 0, 0] 3 referenceProgram).pc < (st #v[0, 0, 0, 0] 3 referenceProgram).config.program.length := by decide

theorem witness_FetchPastTheEndRaises :
    let s := st #v[0, 0, 0, 0] 4 referenceProgram
    s.config.program.length ≤ s.pc ∧ s.running = true ∧ s.fault = .none := by decide

theorem witness_FetchesReturnTheProgramInOrder :
    State.reset.pc = 0 ∧ 4 ≤ State.reset.config.program.length := by decide

theorem witness_StepRunsTheDecodedInstruction :
    let s := st #v[0, 0, 0, 0] 3 referenceProgram
    s.running = true ∧ s.fault = .none ∧ s.config.program[s.pc]? = some 0x0000 := by decide

theorem witness_HaltedAndFaultedAreTerminal :
    ({ State.reset with running := false } : State).running = false ∧
    ({ State.reset with fault := .programOutOfBounds } : State).running = true ∧
    ({ State.reset with fault := .programOutOfBounds } : State).fault ≠ .none ∧
    isNext (step (st #v[0, 0, 0, 0] 3 referenceProgram))
      { st #v[0, 0, 0, 0] 4 referenceProgram with running := false } = true := by decide

/-- Every row of the table, each at the ends of its ranges: register fields 3 and 4, opcodes 3 and 15, counters L - 1 and L. -/
theorem witness_TransitionTable :
    (st #v[0, 0, 0, 0] 0 [0x2334]).running = true ∧ (st #v[0, 0, 0, 0] 0 [0x2334]).fault = .none ∧
    (st #v[0, 0, 0, 0] 1 [0x2334, 0xFFFF]).config.program[1]? = some 0xFFFF ∧
    (decodeFields 0x0000).opcode.toNat = 0 ∧
    (decodeFields 0x1300).opcode.toNat = 1 ∧ (decodeFields 0x1300).operand1.toNat = (3 : Fin 4).val ∧
    4 ≤ (decodeFields 0x1400).operand1.toNat ∧
    (decodeFields 0x2333).opcode.toNat = 2 ∧ (decodeFields 0x2333).operand2.toNat = (3 : Fin 4).val ∧
    4 ≤ (decodeFields 0x2433).operand1.toNat ∧ 4 ≤ (decodeFields 0x2343).operand2.toNat ∧
    4 ≤ (decodeFields 0x2334).operand3.toNat ∧
    3 ≤ (decodeFields 0x3000).opcode.toNat ∧ 3 ≤ (decodeFields 0xFFFF).opcode.toNat ∧
    (st #v[0, 0, 0, 0] 1 [0]).config.program.length ≤ (st #v[0, 0, 0, 0] 1 [0]).pc := by decide +kernel

theorem witness_LoadiWritesTheImmediate :
    10 ≤ (stN 10 #v[0, 0, 0, 0]).config.width ∧ (3 : Nibble).toNat = (3 : Fin 4).val ∧ (0 : Nibble).toNat = (0 : Fin 4).val := by
  decide

theorem witness_LoadiReadsNoRegister : (3 : Nibble).toNat = (3 : Fin 4).val ∧ (15 : Nibble).toNat ≠ (3 : Fin 4).val := by decide

theorem witness_LoadiBadRegisterRaises : 4 ≤ (4 : Nibble).toNat ∧ 4 ≤ (15 : Nibble).toNat := by decide

/-- N = 10, the least: sums at the two ends of the range. -/
theorem witness_AddIsExactWhenTheSumFits :
    let s := stN 10 #v[511, 0, -512, 1]
    10 ≤ s.config.width ∧ (2 : Nibble).toNat = (2 : Fin 4).val ∧
    s.readReg 0 + s.readReg 1 = 2 ^ (s.config.width - 1) - 1 ∧ -(2 ^ (s.config.width - 1)) ≤ s.readReg 0 + s.readReg 1 ∧
    s.readReg 2 + s.readReg 1 = -(2 ^ (s.config.width - 1)) ∧ s.readReg 2 + s.readReg 1 ≤ 2 ^ (s.config.width - 1) - 1 := by
  decide

theorem witness_AddReadsBeforeItWrites :
    (1 : Nibble).toNat = (1 : Fin 4).val ∧ (3 : Nibble).toNat = (3 : Fin 4).val := by decide

/-- N = 10: sums one past each end of the range. -/
theorem witness_AddWrapsOnOverflow :
    let s := stN 10 #v[511, 1, -512, -1]
    10 ≤ s.config.width ∧ s.RegsInRange ∧ (3 : Nibble).toNat = (3 : Fin 4).val ∧
    2 ^ (s.config.width - 1) ≤ s.readReg 0 + s.readReg 1 ∧ s.readReg 2 + s.readReg 3 < -(2 ^ (s.config.width - 1)) := by decide

theorem witness_AddIsPatternAddition : (0 : Nibble).toNat = (0 : Fin 4).val ∧ (3 : Nibble).toNat = (3 : Fin 4).val := by decide

/-- The sign table's rows: both at least 0, different signs, both below 0, one operand 0. -/
theorem witness_AddSignCombinations :
    let s := stN 10 #v[0, 1, -512, -1]
    10 ≤ s.config.width ∧ s.RegsInRange ∧ (2 : Nibble).toNat = (2 : Fin 4).val ∧
    (0 ≤ s.readReg 0 ∧ 0 ≤ s.readReg 1) ∧ (0 ≤ s.readReg 0 ↔ s.readReg 2 < 0) ∧
    (s.readReg 2 < 0 ∧ s.readReg 3 < 0) ∧ s.readReg 0 = 0 := by decide

theorem witness_AddBadRegisterRaises :
    (4 ≤ (4 : Nibble).toNat ∨ 4 ≤ (0 : Nibble).toNat ∨ 4 ≤ (0 : Nibble).toNat) ∧
    (4 ≤ (0 : Nibble).toNat ∨ 4 ≤ (4 : Nibble).toNat ∨ 4 ≤ (0 : Nibble).toNat) ∧
    (4 ≤ (0 : Nibble).toNat ∨ 4 ≤ (0 : Nibble).toNat ∨ 4 ≤ (15 : Nibble).toNat) := by decide

theorem witness_LenientUnrecognizedDoesNothing : State.reset.config.strictOpcode = false := by decide

theorem witness_StrictUnrecognizedRaises :
    (stStrict #v[0, 0, 0, 0] 0 []).config.strictOpcode = true ∧ 3 ≤ (Instr.unrec3 0).opcode.toNat ∧
    3 ≤ (Instr.unrec15 0xFFF).opcode.toNat := by decide

/-- A fetch that succeeds, one that fails, and an evaluation that answers. -/
theorem witness_CounterWrittenByFetchAlone :
    isNext (exec (.loadi 0 1) State.reset) { State.reset with x := #v[1, 0, 0, 0] } = true ∧
    isNext (step State.reset) (st #v[100, 0, 0, 0] 1 referenceProgram) = true ∧
    isNext (step (st #v[0, 0, 0, 0] 4 referenceProgram))
      { st #v[0, 0, 0, 0] 4 referenceProgram with fault := .programOutOfBounds } = true := by decide

/-- An instruction that is not `halt` and answers, a step that answers, a stopped machine. -/
theorem witness_RunningClearedByHaltAlone :
    Instr.add 0 0 4 ≠ .halt ∧ isNext (exec (.add 0 0 4) State.reset) { State.reset with fault := .invalidRegister } = true ∧
    isNext (exec .halt State.reset) { State.reset with running := false } = true ∧
    isNext (step State.reset) (st #v[100, 0, 0, 0] 1 referenceProgram) = true ∧
    ({ State.reset with running := false } : State).running = false := by decide

/-- A step of each of the three kinds: no fault, a fetch at L, an evaluation that raises; and a state with a cause recorded. -/
theorem witness_FaultRegisterIsSticky :
    isNext (exec (.loadi 0 1) State.reset) { State.reset with x := #v[1, 0, 0, 0] } = true ∧
    isNext (step State.reset) (st #v[100, 0, 0, 0] 1 referenceProgram) = true ∧
    (isNext (step (st #v[0, 0, 0, 0] 1 [0x2334])) { st #v[0, 0, 0, 0] 1 [0x2334] with fault := .programOutOfBounds } = true ∧
      (st #v[0, 0, 0, 0] 1 [0x2334]).config.program.length ≤ (st #v[0, 0, 0, 0] 1 [0x2334]).pc) ∧
    isNext (step (st #v[0, 0, 0, 0] 0 [0x2334])) { st #v[0, 0, 0, 0] 1 [0x2334] with fault := .invalidRegister } = true ∧
    isNext (step (stStrict #v[0, 0, 0, 0] 0 [0x3000]))
      { stStrict #v[0, 0, 0, 0] 1 [0x3000] with fault := .invalidOpcode } = true ∧
    ({ State.reset with fault := .invalidOpcode } : State).fault ≠ .none := by decide

theorem witness_InvalidRegisterExactlyWhenIllFormed :
    State.reset.fault ≠ .invalidRegister ∧ (Instr.loadi 4 0).wellFormed = false := by decide

theorem witness_ProgramStoreNeverChanges :
    isNext (exec (.loadi 0 1) State.reset) { State.reset with x := #v[1, 0, 0, 0] } = true := by decide

/-- `loadi` then `add`, `add` then `add`, and the reference pair. The second instruction reads the written register as its second
source alone after the `loadi`, and as its first alone after the `add`. -/
theorem witness_NextInstructionSeesTheWrite :
    let s := st #v[5, 0, 0, 0] 0 [0x1307, 0x2003]
    let t := st #v[1, 2, 0, 0] 0 [0x2201, 0x2321]
    let u := st #v[100, 0, 0, 0] 1 referenceProgram
    (s.running = true ∧ s.fault = .none ∧ 10 ≤ s.config.width ∧
      s.config.program[s.pc]? = some (encode (.loadi (BitVec.ofNat 4 (3 : Fin 4)) 7)) ∧
      s.config.program[s.pc + 1]? =
        some (encode (.add (BitVec.ofNat 4 (0 : Fin 4)) (BitVec.ofNat 4 (0 : Fin 4)) (BitVec.ofNat 4 (3 : Fin 4))))) ∧
    (t.running = true ∧ t.fault = .none ∧
      t.config.program[t.pc]? =
        some (encode (.add (BitVec.ofNat 4 (2 : Fin 4)) (BitVec.ofNat 4 (0 : Fin 4)) (BitVec.ofNat 4 (1 : Fin 4)))) ∧
      t.config.program[t.pc + 1]? =
        some (encode (.add (BitVec.ofNat 4 (3 : Fin 4)) (BitVec.ofNat 4 (2 : Fin 4)) (BitVec.ofNat 4 (1 : Fin 4)))) ∧
      (3 : Int) = wrapN t.config.width (t.readReg 0 + t.readReg 1)) ∧
    (u.running = true ∧ u.fault = .none ∧ 10 ≤ u.config.width ∧
      u.config.program[u.pc]? = some 0x11C8 ∧ u.config.program[u.pc + 1]? = some 0x2201) := by decide

/-- States in the invariant, at the ends of the range of the counter and of a register, with a step. -/
theorem witness_StepKeepsTheInvariant :
    State.reset.Inv ∧ isNext (step State.reset) (st #v[100, 0, 0, 0] 1 referenceProgram) = true ∧
    (st #v[2147483647, -2147483648, 0, 0] 4 referenceProgram).Inv ∧
    isNext (step (st #v[2147483647, -2147483648, 0, 0] 4 referenceProgram))
      { st #v[2147483647, -2147483648, 0, 0] 4 referenceProgram with fault := .programOutOfBounds } = true := by decide

theorem witness_ConstructionMeetsTheInvariant :
    (Config.mk 10 [] true).wellFormed = true ∧ Config.default.wellFormed = true := by decide

/-- A program without `halt`, lenient, is still Running after L steps (here L = 1). -/
theorem witness_EveryRunEnds :
    (runSteps (Config.mk 32 [0x1064] false).program.length (State.construct ⟨32, [0x1064], false⟩)).stopped = false := by decide

theorem witness_WellFormedProgramHalts :
    haltsAt referenceProgram 3 = true ∧ haltsAt [0x0000] 0 = true ∧ haltsAt [0x12FF, 0x0ABC, 0xFFFF] 1 = true := by decide

theorem witness_CounterCountsIterations :
    (runSteps 1 (State.construct ⟨32, [0x1064], false⟩)).loopState = .running := by decide

/-- The least counter width that holds L = 4, at a counter of 3 and at L. -/
theorem witness_AnyCounterWidthHoldsThePc :
    let s := st #v[0, 0, 0, 0] 3 referenceProgram
    let t : State := { st #v[0, 0, 0, 0] 4 referenceProgram with running := false }
    s.Inv ∧ s.config.program.length ≤ 2 ^ 3 - 1 ∧ isNext (step s) t = true ∧ s.pc < s.config.program.length := by decide

theorem witness_SnapshotLine :
    (st #v[65535, 0, 100, 1] 0 []).x = #v[((65535 : Nat) : Int), (0 : Nat), (100 : Nat), (1 : Nat)] ∧ 65535 ≤ 65535 ∧
    (st #v[100, 200, 300, 0] 0 []).x = #v[100, 200, 300, 0] := by decide

theorem witness_TraceDescribesThenSnapshots :
    State.reset.memRead State.reset.pc = some 0x1064 ∧
    isNext (step State.reset) (st #v[100, 0, 0, 0] 1 referenceProgram) = true ∧
    ({ State.reset with running := false } : State).stopped = true ∧
    (st #v[0, 0, 0, 0] 4 referenceProgram).memRead 4 = none := by decide

theorem witness_ClockedMachineRefinesTheStep :
    romAnswers State.reset ⟨false, 0x1064⟩ ∧ romAnswers (st #v[0, 0, 0, 0] 4 referenceProgram) ⟨false, 0xFFFF⟩ := by
  constructor
  · intro w h; exact (Option.some.inj h)
  · intro w h; exact absurd (show (none : Option Word) = some w from h) nofun

end Sys2Proof.Tests
end

section
/-! PROOFS. The invariants of the state (10_state.md section 7): construction meets them and every step keeps them. -/

namespace Sys2Proof.Machine

/-! ### Values that fit a register -/

theorem zero_inRange (n : Nat) : InRange n 0 := by
  have hp : (0 : Int) < 2 ^ (n - 1) := by positivity
  exact ⟨by omega, hp⟩

/-- The zero-extended immediate is 0 to 255, which a register of 9 bits already holds (R63). -/
theorem zextN_inRange {n : Nat} (hn : 9 ≤ n) (v : Immediate) : InRange n (zextN n v) := by
  have hv := v.isLt
  have hp : (2 : Int) ^ 8 ≤ 2 ^ (n - 1) := pow_le_pow_right₀ (by decide) (by omega)
  rw [zextN_eq n hn v]
  constructor <;> omega

/-! ### What an evaluation can do -/

/-- Every instruction's meaning is one update of the state or none (R88). What it writes fits a register of the
spec's widths, and `InvalidOpcode` is raised in strict mode alone. -/
theorem exec_cases (i : Instr) (s : State) :
    exec i s = .next s.clearRunning ∨
    (∃ r v, (10 ≤ s.config.width → InRange s.config.width v) ∧ exec i s = .next (s.writeReg r v)) ∨
    exec i s = .next (s.raise .invalidRegister) ∨
    (s.config.strictOpcode = true ∧ exec i s = .next (s.raise .invalidOpcode)) ∨
    exec i s = .next s := by
  cases i with
  | halt => exact .inl rfl
  | loadi d imm =>
    obtain ⟨r, -, e⟩ | ⟨-, e⟩ := execLoadi_cases d imm s
    · exact .inr (.inl ⟨r, _, fun hn => zextN_inRange (by omega) imm, e⟩)
    · exact .inr (.inr (.inl e))
  | add d a b =>
    obtain ⟨r, _, _, -, -, -, e⟩ | ⟨-, e⟩ := execAdd_cases d a b s
    · exact .inr (.inl ⟨r, _, fun hn => wrapN_inRange _ (by omega) _, e⟩)
    · exact .inr (.inr (.inl e))
  | unrec3 _ | unrec4 _ | unrec5 _ | unrec6 _ | unrec7 _ | unrec8 _ | unrec9 _ | unrec10 _ | unrec11 _
  | unrec12 _ | unrec13 _ | unrec14 _ | unrec15 _ =>
    obtain ⟨hs, e⟩ | ⟨-, e⟩ := s.unrecognized_cases
    · exact .inr (.inr (.inr (.inl ⟨hs, e⟩)))
    · exact .inr (.inr (.inr (.inr e)))

/-! ### Each update keeps the invariant -/

theorem width_of_wellFormed {c : Config} (h : c.wellFormed = true) : 10 ≤ c.width := of_decide_eq_true h

variable {s : State}

theorem State.Inv.writeReg (h : s.Inv) (r : Fin 4) {v : Int} (hv : InRange s.config.width v) :
    (s.writeReg r v).Inv := by
  obtain ⟨hw, hx, hrest⟩ := h
  refine ⟨hw, fun q => ?_, hrest⟩
  by_cases hq : q = r
  · subst hq; simpa using hv
  · rw [State.readReg_writeReg_ne _ _ _ _ hq]
    exact hx q

theorem State.Inv.clearRunning (h : s.Inv) (hf : s.fault = .none) (hpc : 1 ≤ s.pc) : s.clearRunning.Inv := by
  obtain ⟨hw, hx, hle, -, hoob, -, hop⟩ := h
  exact ⟨hw, hx, hle, fun _ => hf, hoob, fun _ => hpc, hop⟩

/-- A running machine may record any cause whose own clause of the invariant holds. -/
theorem State.Inv.raise (h : s.Inv) (hr : s.running = true) {c : Cause}
    (hoob : c = .programOutOfBounds → s.pc = s.config.length)
    (hpc : c = .invalidRegister ∨ c = .invalidOpcode → 1 ≤ s.pc)
    (hop : c = .invalidOpcode → s.config.strictOpcode = true) : (s.raise c).Inv := by
  obtain ⟨hw, hx, hle, -⟩ := h
  refine ⟨hw, hx, hle, fun hn => ?_, hoob, ?_, hop⟩
  · simp [hr] at hn
  · rintro (hc | hc | hn)
    · exact hpc (.inl hc)
    · exact hpc (.inr hc)
    · simp [hr] at hn

theorem State.Inv.advancePc (h : s.Inv) (hf : s.fault = .none) (hlt : s.pc < s.config.length) :
    s.advancePc.Inv := by
  obtain ⟨hw, hx, -, hrun, -, -, hop⟩ := h
  refine ⟨hw, hx, hlt, hrun, fun hc => ?_, fun _ => Nat.le_add_left 1 s.pc, hop⟩
  simp [hf] at hc

/-- An evaluation keeps the invariant in a state a fetch can leave: running, no fault, the counter past a word. -/
theorem State.Inv.exec {i : Instr} {t : State} (h : s.Inv) (hr : s.running = true) (hf : s.fault = .none)
    (hpc : 1 ≤ s.pc) (he : exec i s = .next t) : t.Inv := by
  have hw : 10 ≤ s.config.width := width_of_wellFormed h.1
  obtain e | ⟨r, v, hv, e⟩ | e | ⟨hs, e⟩ | e := exec_cases i s <;>
    obtain rfl := Host.Outcome.next.inj (e.symm.trans he)
  · exact h.clearRunning hf hpc
  · exact h.writeReg r (hv hw)
  · exact h.raise hr nofun (fun _ => hpc) nofun
  · exact h.raise hr nofun (fun _ => hpc) (fun _ => hs)
  · exact h

/-! ### The obligations -/

/-- Settles O36: a step is a fetch that advances and then one evaluation, or a fetch at L that raises. -/
theorem stepKeepsTheInvariant : Obligations.StepKeepsTheInvariant := by
  intro s t h hstep
  obtain ⟨hr, hf, ⟨w, hw, he⟩ | ⟨hn, rfl⟩⟩ := step_cases hstep
  · obtain ⟨hlt, -⟩ := (s.memRead_eq_some_iff s.pc w).1 hw
    exact (h.advancePc hf hlt).exec hr hf (Nat.le_add_left 1 s.pc) he
  · have hge : s.config.length ≤ s.pc := (s.memRead_eq_none_iff s.pc).1 hn
    have ⟨_, _, hle, _⟩ := h
    exact h.raise hr (fun _ => hle.antisymm hge) (by simp) nofun

theorem State.Inv.construct {c : Config} (hc : c.wellFormed = true) : (State.construct c).Inv := by
  refine ⟨hc, fun r => ?_, Nat.zero_le _, nofun, nofun, ?_, nofun⟩
  · rw [State.readReg_construct]
    exact zero_inRange _
  · simp

/-- Settles O37: all registers are 0, the counter is 0 and no clause about a stopped machine applies. -/
theorem constructionMeetsTheInvariant : Obligations.ConstructionMeetsTheInvariant :=
  ⟨fun _ hc => State.Inv.construct hc, State.Inv.construct (c := Config.default) rfl⟩

end Sys2Proof.Machine
end

section
/-! PROOFS. What an evaluation reads, and the state statements about `halt`, `loadi` and the running flag (10_state.md). -/

namespace Sys2Proof.Machine

/-! ### The meaning of each register-writing instruction, by its fields -/

theorem execLoadi_of_index {d : Nibble} {r : Fin 4} (hd : d.toNat = r.val) (imm : Immediate) (s : State) :
    execLoadi d imm s = .next (s.writeReg r (zextN s.config.width imm)) := by
  simp [execLoadi, (regIndex?_eq_some_iff d r).2 hd]

theorem execLoadi_of_four_le {d : Nibble} (hd : 4 ≤ d.toNat) (imm : Immediate) (s : State) :
    execLoadi d imm s = .next (s.raise .invalidRegister) := by
  simp [execLoadi, (regIndex?_eq_none_iff d).2 hd]

theorem execAdd_of_indices {d a b : Nibble} {rd ra rb : Fin 4} (hd : d.toNat = rd.val) (ha : a.toNat = ra.val)
    (hb : b.toNat = rb.val) (s : State) :
    execAdd d a b s = .next (s.writeReg rd (wrapN s.config.width (s.readReg ra + s.readReg rb))) := by
  simp [execAdd, (regIndex?_eq_some_iff d rd).2 hd, (regIndex?_eq_some_iff a ra).2 ha,
    (regIndex?_eq_some_iff b rb).2 hb]

theorem execAdd_of_four_le {d a b : Nibble} (h : 4 ≤ d.toNat ∨ 4 ≤ a.toNat ∨ 4 ≤ b.toNat) (s : State) :
    execAdd d a b s = .next (s.raise .invalidRegister) := by
  obtain ⟨rd, ra, rb, hd, ha, hb, -⟩ | ⟨-, e⟩ := execAdd_cases d a b s
  · omega
  · exact e

/-! ### What an evaluation reads -/

/-- An evaluation other than `halt` reads the register file and the configuration alone: in all states that share them it
is one and the same update (R29, R30, R86). -/
theorem exec_uniform (i : Instr) (s : State) :
    i = .halt ∨
    (∃ r v, ∀ u : State, u.x = s.x → u.config = s.config → exec i u = .next (u.writeReg r v)) ∨
    (∃ c, (c = .invalidRegister ∨ c = .invalidOpcode) ∧
      ∀ u : State, u.x = s.x → u.config = s.config → exec i u = .next (u.raise c)) ∨
    (∀ u : State, u.x = s.x → u.config = s.config → exec i u = .next u) := by
  cases i with
  | halt => exact .inl rfl
  | loadi d imm =>
    obtain ⟨r, hd, -⟩ | ⟨hd, -⟩ := execLoadi_cases d imm s
    · exact .inr (.inl ⟨r, zextN s.config.width imm, fun u _ hc => hc ▸ execLoadi_of_index hd imm u⟩)
    · exact .inr (.inr (.inl ⟨_, .inl rfl, fun u _ _ => execLoadi_of_four_le hd imm u⟩))
  | add d a b =>
    obtain ⟨rd, ra, rb, hd, ha, hb, -⟩ | ⟨h, -⟩ := execAdd_cases d a b s
    · refine .inr (.inl ⟨rd, wrapN s.config.width (s.readReg ra + s.readReg rb), fun u hx hc => ?_⟩)
      simp only [State.readReg_eq, ← hx, ← hc]
      exact execAdd_of_indices hd ha hb u
    · exact .inr (.inr (.inl ⟨_, .inl rfl, fun u _ _ => execAdd_of_four_le h u⟩))
  | unrec3 _ | unrec4 _ | unrec5 _ | unrec6 _ | unrec7 _ | unrec8 _ | unrec9 _ | unrec10 _ | unrec11 _
  | unrec12 _ | unrec13 _ | unrec14 _ | unrec15 _ =>
    cases hs : s.config.strictOpcode with
    | true =>
      refine .inr (.inr (.inl ⟨_, .inr rfl, fun u _ hc => ?_⟩))
      exact if_pos (by rw [hc, hs])
    | false =>
      refine .inr (.inr (.inr fun u _ hc => ?_))
      exact if_neg (by simp [hc, hs])

/-! ### The running flag -/

/-- No instruction but `halt` reads or writes the running flag (R29). -/
theorem exec_setRunning {i : Instr} (hi : i ≠ .halt) {s t : State} (he : exec i s = .next t) (b : Bool) :
    exec i { s with running := b } = .next { t with running := b } := by
  obtain h | ⟨r, v, h⟩ | ⟨c, -, h⟩ | h := exec_uniform i s
  · exact absurd h hi
  all_goals
    obtain rfl := Host.Outcome.next.inj ((h s rfl rfl).symm.trans he)
    exact h _ rfl rfl

theorem exec_running {i : Instr} {s t : State} (he : exec i s = .next t) :
    t.running = (s.running && decide (i ≠ .halt)) := by
  by_cases hi : i = .halt
  · subst hi
    obtain rfl : s.clearRunning = t := Host.Outcome.next.inj he
    simp
  · have h := Host.Outcome.next.inj (he.symm.trans (exec_setRunning hi he s.running))
    simpa [hi] using congrArg State.running h

/-- A step clears the running flag exactly when the word it fetches is a `halt` (R29). -/
theorem step_running_eq_false_iff {s t : State} (h : step s = .next t) :
    t.running = false ↔ ∃ w, s.memRead s.pc = some w ∧ decode w = .halt := by
  obtain ⟨hr, -, ⟨w, hw, he⟩ | ⟨hn, rfl⟩⟩ := step_cases h
  · simp [exec_running he, hr, hw]
  · simp [hr, hn]

theorem runSteps_of_stopped {s : State} (h : s.stopped = true) (k : Nat) : runSteps k s = s := by
  induction k with
  | zero => rfl
  | succ k ih => rw [runSteps, after_step_of_stopped h, ih]

/-! ### The obligations -/

/-- Settles O17: the cell is written with the zero-extended immediate, which N at least 10 bits hold. -/
theorem loadiWritesTheImmediate : Obligations.LoadiWritesTheImmediate := by
  intro s d imm r hw hd
  refine ⟨s.writeReg r (zextN s.config.width imm), execLoadi_of_index hd imm s, ?_,
    fun q hq => State.readReg_writeReg_ne s r _ q hq, rfl, rfl, rfl, rfl, fun _ => rfl⟩
  rw [State.readReg_writeReg_same, zextN_eq _ (by omega)]

/-- Settles O31: every other instruction is the same update whatever the flag, and a machine not running takes no step. -/
theorem runningClearedByHaltAlone : Obligations.RunningClearedByHaltAlone := by
  refine ⟨fun _ _ _ => exec_running, fun _ _ _ b hi he => exec_setRunning hi he b, fun _ _ => rfl,
    fun _ _ => step_running_eq_false_iff, fun s k h => ?_, fun _ => rfl⟩
  rw [runSteps_of_stopped (by simp [State.stopped, h])]
  exact h

/-- Settles O16: `halt` is the one update `State.clearRunning`. -/
theorem haltClearsRunningAlone : Obligations.HaltClearsRunningAlone :=
  fun s => ⟨s.clearRunning, rfl, rfl, rfl, rfl, rfl, fun _ => rfl, fun _ => rfl⟩

end Sys2Proof.Machine
end

section
/-! PROOFS. Nothing in the machine writes the configuration, and so not the program store (20_memory.md R53, R45, R182). -/

namespace Sys2Proof.Machine

/-! ### What leaves the configuration as it is -/

theorem exec_config {i : Instr} {s t : State} (he : exec i s = .next t) : t.config = s.config := by
  obtain e | ⟨r, v, -, e⟩ | e | ⟨-, e⟩ | e := exec_cases i s <;>
    obtain rfl := Host.Outcome.next.inj (e.symm.trans he)
  · exact s.clearRunning_config
  · exact s.writeReg_config r v
  · exact s.raise_config .invalidRegister
  · exact s.raise_config .invalidOpcode
  · rfl

theorem step_config {s t : State} (h : step s = .next t) : t.config = s.config := by
  obtain ⟨-, -, ⟨_, -, he⟩ | ⟨-, rfl⟩⟩ := step_cases h
  · exact (exec_config he).trans s.advancePc_config
  · exact s.raise_config .programOutOfBounds

theorem after_step_config (s : State) : (s.after (step s)).config = s.config := by
  cases h : step s with
  | next t => exact step_config h
  | fault _ => rfl
  | refused _ => rfl

@[simp] theorem runSteps_config (n : Nat) (s : State) : (runSteps n s).config = s.config := by
  induction n generalizing s with
  | zero => rfl
  | succ n ih => exact (ih _).trans (after_step_config s)

/-! ### The program store -/

/-- The configuration is all that a read of the program store depends on (R43). -/
theorem State.memRead_of_config_eq {s : State} {c : Config} (h : s.config = c) (k : Nat) :
    s.memRead k = c.program[k]? := by
  subst h; rfl

/-- Settles O34: every evaluation keeps the configuration, so every run does, and the reset takes it over. -/
theorem programStoreNeverChanges : Obligations.ProgramStoreNeverChanges :=
  ⟨fun _ _ _ => exec_config, fun _ _ k => State.memRead_of_config_eq (by simp) k,
    fun _ _ _ k => State.memRead_of_config_eq (by simp) k⟩

end Sys2Proof.Machine
end

section
/-! PROOFS. The decoder: the fields as slices of the word, and the opcode map (30_encoding.md R61 to R65, R87). -/

namespace Sys2Proof

/-! ### The fields of a word, as numbers (R62) -/

section Fields

variable (w : Word)

@[simp] theorem decodeFields_opcode_toNat : (decodeFields w).opcode.toNat = (w.toNat >>> 12) % 16 :=
  BitVec.extractLsb'_toNat 12 4 w

@[simp] theorem decodeFields_operand1_toNat : (decodeFields w).operand1.toNat = (w.toNat >>> 8) % 16 :=
  BitVec.extractLsb'_toNat 8 4 w

@[simp] theorem decodeFields_operand2_toNat : (decodeFields w).operand2.toNat = (w.toNat >>> 4) % 16 :=
  BitVec.extractLsb'_toNat 4 4 w

@[simp] theorem decodeFields_operand3_toNat : (decodeFields w).operand3.toNat = w.toNat % 16 :=
  BitVec.extractLsb'_toNat 0 4 w

@[simp] theorem decodeFields_immediate_toNat : (decodeFields w).immediate.toNat = w.toNat % 256 :=
  BitVec.extractLsb'_toNat 0 8 w

end Fields

/-! ### The opcode map (R65, R87) -/

section OpcodeMap

variable (f : Decoded)

/-- The one case split on the opcode: each of its 16 values has a row of its own. -/
@[simp] theorem Decoded.instr_opcode : f.instr.opcode = f.opcode := by
  obtain ⟨⟨n, hn⟩, _, _, _, _⟩ := f
  interval_cases n <;> rfl

variable {f}

theorem Decoded.instr_of_opcode_eq_zero (h : f.opcode = 0) : f.instr = .halt := by
  simp [Decoded.instr, h]

theorem Decoded.instr_of_opcode_eq_one (h : f.opcode = 1) : f.instr = .loadi f.operand1 f.immediate := by
  simp [Decoded.instr, h]

theorem Decoded.instr_of_opcode_eq_two (h : f.opcode = 2) :
    f.instr = .add f.operand1 f.operand2 f.operand3 := by
  simp [Decoded.instr, h]

/-- The form of an instruction follows from its opcode (R64, R65): 3 and above are the unrecognized ones. -/
theorem Instr.form_of_three_le_opcode {i : Instr} (h : 3 ≤ i.opcode.toNat) : i.form = .U := by
  cases i with
  | halt | loadi _ _ | add _ _ _ => simp [Instr.opcode] at h
  | unrec3 _ | unrec4 _ | unrec5 _ | unrec6 _ | unrec7 _ | unrec8 _ | unrec9 _ | unrec10 _ | unrec11 _
  | unrec12 _ | unrec13 _ | unrec14 _ | unrec15 _ => rfl

end OpcodeMap

/-! ### The obligations -/

/-- Settles O8: the opcode is that of the row selected, which fixes the form, and each defined row takes the fields. -/
theorem opcodeAloneSelectsTheInstruction : Obligations.OpcodeAloneSelectsTheInstruction := by
  intro w
  have hop : (decode w).opcode = (decodeFields w).opcode := Decoded.instr_opcode _
  refine ⟨hop, Decoded.instr_of_opcode_eq_zero, Decoded.instr_of_opcode_eq_one, Decoded.instr_of_opcode_eq_two,
    fun h => Instr.form_of_three_le_opcode ?_⟩
  rwa [hop]

/-- Settles O1: seven closed words, evaluated. -/
theorem sampleWordsDecode : Obligations.SampleWordsDecode := by
  unfold Obligations.SampleWordsDecode
  decide

/-- Settles O2: each field is a slice, whose value is the shift and remainder of R62. -/
theorem decodeFieldsSliceTheWord : Obligations.DecodeFieldsSliceTheWord :=
  ⟨fun w => ⟨decodeFields_opcode_toNat w, decodeFields_operand1_toNat w, decodeFields_operand2_toNat w,
    decodeFields_operand3_toNat w, decodeFields_immediate_toNat w⟩, by decide⟩

/-- Settles O3: by R62's slices both laws are arithmetic on the value of the word, which is below 2^16. -/
theorem immediateJoinsTheLowOperands : Obligations.ImmediateJoinsTheLowOperands := by
  intro w
  have hw : w.toNat < 65536 := w.isLt
  simp only [decodeFields_opcode_toNat, decodeFields_operand1_toNat, decodeFields_operand2_toNat,
    decodeFields_operand3_toNat, decodeFields_immediate_toNat]
  omega

end Sys2Proof
end

section
/-! PROOFS. A fetch below L, and the step that evaluates the fetched word (40_cycle.md R81, R84, R89). -/

namespace Sys2Proof.Machine

variable {s : State} {w : Word}

/-! ### What a word at the counter decides -/

theorem State.fetch_of_memRead_eq_some (h : s.memRead s.pc = some w) : s.fetch = (some w, s.advancePc) := by
  obtain ⟨v, hv, e⟩ | ⟨hn, -⟩ := s.fetch_cases
  · obtain rfl := Option.some.inj (h.symm.trans hv)
    exact e
  · exact absurd (h.symm.trans hn) nofun

theorem step_of_memRead_eq_some (hl : s.loopState = .running) (h : s.memRead s.pc = some w) :
    step s = exec (decode w) s.advancePc := by
  rw [step_of_running hl, State.fetch_of_memRead_eq_some h]
  rfl

/-! ### The obligations -/

/-- Settles O10: below L a word stands at the counter, and the fetch returns it and advances. -/
theorem fetchReturnsTheWordAndAdvances : Obligations.FetchReturnsTheWordAndAdvances :=
  fun s h => State.fetch_of_memRead_eq_some ((s.memRead_eq_some_iff s.pc _).2 ⟨h, rfl⟩)

/-- Settles O13: running without a fault is the state Running, in which the fetched word is evaluated. -/
theorem stepRunsTheDecodedInstruction : Obligations.StepRunsTheDecodedInstruction :=
  fun s _ hr hf hw => step_of_memRead_eq_some (s.loopState_running_iff.2 ⟨hr, hf⟩) hw

end Sys2Proof.Machine
end

section
/-! PROOFS. What `add` leaves in its destination when the sum fits (43_add.md R111). -/

namespace Sys2Proof.Machine

variable (s : State) (r : Fin 4) (v : Int)

/-! ### The frame of a register write -/

theorem State.sameRegsBut_writeReg : s.SameRegsBut r (s.writeReg r v) :=
  fun q hq => s.readReg_writeReg_ne r v q hq

theorem State.sameControl_writeReg : s.SameControl (s.writeReg r v) :=
  ⟨rfl, rfl, rfl, rfl, fun _ => rfl⟩

/-! ### The obligations -/

/-- Settles O21: the write is the one `add` does, and a sum that fits in N bits is unchanged by `wrap_N`. -/
theorem addIsExactWhenTheSumFits : Obligations.AddIsExactWhenTheSumFits := by
  intro s d a b rd ra rb hw hd ha hb hlo hhi
  have hsum : wrapN s.config.width (s.readReg ra + s.readReg rb) = s.readReg ra + s.readReg rb :=
    wrapN_of_inRange _ (by omega) _ hlo (Int.lt_of_le_sub_one hhi)
  refine ⟨_, execAdd_of_indices hd ha hb s, ?_, s.sameRegsBut_writeReg rd _, s.sameControl_writeReg rd _⟩
  rw [State.readReg_writeReg_same, hsum]

end Sys2Proof.Machine
end

section
/-! PROOFS. The snapshot line of register values of 0 to 65535 (50_interfaces.md R140, R141). -/

namespace Sys2Proof.Machine

/-! ### Hexadecimal text -/

/-- The two ranges of character codes meet at 10: the digit of each value is an entry of the upper-case table (R141). -/
theorem hexDigit_eq_table : ∀ k : Fin 16, hexDigit k.val =
    #v['0', '1', '2', '3', '4', '5', '6', '7', '8', '9', 'A', 'B', 'C', 'D', 'E', 'F'][k] := by
  decide

/-- The value of a 16-bit number is that of its four hexadecimal digits, most significant first. -/
theorem eq_sum_hexDigits {v : Nat} (h : v ≤ 65535) :
    v = v / 4096 % 16 * 4096 + v / 256 % 16 * 256 + v / 16 % 16 * 16 + v % 16 := by
  omega

/-! ### The cells of a snapshot -/

theorem renderCell_of_le {v : Nat} (h : v ≤ 65535) : renderCell v = hex4 v :=
  if_pos ⟨Int.natCast_nonneg v, by exact_mod_cast h⟩

theorem snapshot_of_x_eq {s : State} {a b c d : Nat} (ha : a ≤ 65535) (hb : b ≤ 65535) (hc : c ≤ 65535)
    (hd : d ≤ 65535) (hx : s.x = #v[(a : Int), b, c, d]) :
    snapshot s = "regs = " ++ hex4 a ++ " " ++ hex4 b ++ " " ++ hex4 c ++ " " ++ hex4 d := by
  rw [← renderCell_of_le ha, ← renderCell_of_le hb, ← renderCell_of_le hc, ← renderCell_of_le hd]
  simp [snapshot, State.readReg_eq, hx]

/-! ### The obligations -/

/-- Settles O44: each cell is the four digits of its value, and the example is the line of 100, 200, 300 and 0. -/
theorem snapshotLine : Obligations.SnapshotLine := by
  refine ⟨fun _ _ _ _ _ => snapshot_of_x_eq, fun v hv => ?_, fun s hx => ?_⟩
  · refine ⟨Fin.ofNat 16 (v / 4096), Fin.ofNat 16 (v / 256), Fin.ofNat 16 (v / 16), Fin.ofNat 16 v,
      eq_sum_hexDigits hv, ?_⟩
    simp only [← hexDigit_eq_table]
    rfl
  · calc snapshot s = "regs = " ++ hex4 100 ++ " " ++ hex4 200 ++ " " ++ hex4 300 ++ " " ++ hex4 0 :=
          snapshot_of_x_eq (by decide) (by decide) (by decide) (by decide) hx
      _ = "regs = 0064 00C8 012C 0000" := by decide

end Sys2Proof.Machine
end

section
/-! PROOFS. The round trips of decoder and encoder, and the assembler (30_encoding.md R62, R65, R70 to R72). -/

namespace Sys2Proof

/-! ### Decoding the word of an instruction -/

theorem decode_append (op : Nibble) (low : BitVec 12) :
    decode (op ++ low) =
      (Decoded.mk op (low.extractLsb' 8 4) (low.extractLsb' 4 4) (low.extractLsb' 0 4) (low.extractLsb' 0 8)).instr :=
  congrArg Decoded.instr (decodeFields_append op low)

/-- The fields of a `loadi` word that mean something. -/
theorem decodeFields_encode_loadi (d : Nibble) (imm : Immediate) :
    (decodeFields (encode (.loadi d imm))).opcode = 1 ∧ (decodeFields (encode (.loadi d imm))).operand1 = d ∧
      (decodeFields (encode (.loadi d imm))).immediate = imm := by
  rw [encode, decodeFields_append]
  exact ⟨rfl, fields_of_formI d imm⟩

/-- The fields of an `add` word that mean something. -/
theorem decodeFields_encode_add (d a b : Nibble) :
    (decodeFields (encode (.add d a b))).opcode = 2 ∧ (decodeFields (encode (.add d a b))).operand1 = d ∧
      (decodeFields (encode (.add d a b))).operand2 = a ∧ (decodeFields (encode (.add d a b))).operand3 = b := by
  rw [encode, decodeFields_append]
  exact ⟨rfl, fields_of_formR d a b⟩

theorem decode_encode (i : Instr) : decode (encode i) = i := by
  cases i with
  | halt => rfl
  | loadi d imm =>
    obtain ⟨hop, hd, himm⟩ := decodeFields_encode_loadi d imm
    rw [decode, Decoded.instr_of_opcode_eq_one hop, hd, himm]
  | add d a b =>
    obtain ⟨hop, hd, ha, hb⟩ := decodeFields_encode_add d a b
    rw [decode, Decoded.instr_of_opcode_eq_two hop, hd, ha, hb]
  | unrec3 low | unrec4 low | unrec5 low | unrec6 low | unrec7 low | unrec8 low | unrec9 low | unrec10 low
  | unrec11 low | unrec12 low | unrec13 low | unrec14 low | unrec15 low =>
    exact (decode_append _ low).trans (congrArg _ (low_eq_fields low))

/-! ### Encoding a decoded word -/

theorem decode_opcode (w : Word) : (decode w).opcode = (decodeFields w).opcode := Decoded.instr_opcode _

/-- The unrecognized rows keep the low bits as they are (assumption 11). -/
theorem Decoded.instr_low_of_three_le {f : Decoded} (h : 3 ≤ f.opcode.toNat) : f.instr.low = f.low := by
  obtain ⟨⟨n, hn⟩, _, _, _, _⟩ := f
  have h3 : 3 ≤ n := h
  interval_cases n <;> rfl

theorem decodeFields_low (w : Word) : (decodeFields w).low = w.extractLsb' 0 12 := by
  simp only [Decoded.low, decodeFields]
  rw [BitVec.extractLsb'_append_extractLsb'_eq_extractLsb' (by decide),
    BitVec.extractLsb'_append_extractLsb'_eq_extractLsb' (by decide)]

/-- Every row but `halt` keeps all twelve low bits of the word in its operands. -/
theorem decode_low_of_opcode_ne_zero {w : Word} (h : (decodeFields w).opcode ≠ 0) :
    (decode w).low = w.extractLsb' 0 12 := by
  by_cases h1 : (decodeFields w).opcode = 1
  · rw [decode, Decoded.instr_of_opcode_eq_one h1]
    exact BitVec.extractLsb'_append_extractLsb'_eq_extractLsb' (by decide)
  by_cases h2 : (decodeFields w).opcode = 2
  · rw [decode, Decoded.instr_of_opcode_eq_two h2, ← decodeFields_low]
    rfl
  · rw [decode, Decoded.instr_low_of_three_le (by bv_omega), decodeFields_low]

theorem decodeFields_opcode_eq_zero_iff (w : Word) : (decodeFields w).opcode = 0 ↔ w.toNat < 4096 := by
  have hw : w.toNat < 65536 := w.isLt
  rw [← BitVec.toNat_inj, decodeFields_opcode_toNat, BitVec.ofNat_eq_ofNat, BitVec.toNat_zero]
  omega

theorem encode_decode_of_opcode_ne_zero {w : Word} (h : (decodeFields w).opcode ≠ 0) : encode (decode w) = w := by
  rw [encode, decode_opcode, decode_low_of_opcode_ne_zero h]
  exact word_eq_append w

/-! ### The encoded word by shifts (R71) -/

theorem encode_eq_shift_or (i : Instr) : encode i = (i.opcode.setWidth 16 <<< 12) ||| i.low.setWidth 16 :=
  (BitVec.setWidth_eq _).symm.trans BitVec.setWidth_append_eq_shiftLeft_setWidth_or

/-! ### The assembler (R70) -/

theorem toNat_ofNat_of_le_three {r : Nat} (h : r ≤ 3) : (BitVec.ofNat 4 r).toNat = r := by
  rw [BitVec.toNat_ofNat]; omega

theorem namesRegister_ofNat {r : Nat} (h : r ≤ 3) : namesRegister (BitVec.ofNat 4 r) = true := by
  simpa [namesRegister] using (toNat_ofNat_of_le_three h).trans_le h

/-- The instruction of a legal line is well formed, and its description is the line itself (R142). -/
theorem AsmLine.instr_of_legal {line : AsmLine} (h : line.legal = true) :
    ∃ i, line.instr = some i ∧ i.wellFormed = true ∧ Machine.description i = Machine.asmText line := by
  cases line with
  | halt => exact ⟨_, if_pos h, rfl, rfl⟩
  | loadi d imm =>
    obtain ⟨⟨hd, h0⟩, h255⟩ : (d ≤ 3 ∧ 0 ≤ imm) ∧ imm ≤ 255 := by simpa [AsmLine.legal] using h
    refine ⟨_, if_pos h, namesRegister_ofNat hd, ?_⟩
    have himm : ((BitVec.ofInt 8 imm).toNat : Int) = imm := by rw [BitVec.toNat_ofInt]; omega
    rw [Machine.description, toNat_ofNat_of_le_three hd, himm]
  | add d a b =>
    obtain ⟨⟨hd, ha⟩, hb⟩ : (d ≤ 3 ∧ a ≤ 3) ∧ b ≤ 3 := by simpa [AsmLine.legal] using h
    refine ⟨_, if_pos h, by simp [Instr.wellFormed, namesRegister_ofNat, hd, ha, hb], ?_⟩
    rw [Machine.description, toNat_ofNat_of_le_three hd, toNat_ofNat_of_le_three ha, toNat_ofNat_of_le_three hb]

/-! ### The obligations -/

/-- Settles O4: `loadi` and `add` come back field by field, an unrecognized word by its twelve low bits. -/
theorem decodeInvertsEncode : Obligations.DecodeInvertsEncode := decode_encode

/-- Settles O5: a word below 4096 has opcode 0 and decodes to `halt`, any other keeps its opcode and low bits. -/
theorem encodeInvertsDecodeButForHalt : Obligations.EncodeInvertsDecodeButForHalt := by
  intro w
  split
  · next h =>
    rw [decode, Decoded.instr_of_opcode_eq_zero ((decodeFields_opcode_eq_zero_iff w).2 h)]
    rfl
  · next h => exact encode_decode_of_opcode_ne_zero (mt (decodeFields_opcode_eq_zero_iff w).1 h)

/-- Settles O6: a word is its opcode shifted and its low bits, which are the operands shifted likewise. -/
theorem encodeGivesTheSpecsWords : Obligations.EncodeGivesTheSpecsWords := by
  refine ⟨rfl, fun d imm => ?_, fun d a b => ?_⟩ <;> rw [encode_eq_shift_or]
  · rw [Instr.low, BitVec.setWidth_append_eq_shiftLeft_setWidth_or, BitVec.or_assoc]
    rfl
  · rw [Instr.low, BitVec.setWidth_append_append_eq_shiftLeft_setWidth_or, ← BitVec.or_assoc, ← BitVec.or_assoc]
    rfl

/-- Settles O7: the fields of each encoded word, and the evaluated word 0x0ABC. -/
theorem roundTripOfDefinedInstructions : Obligations.RoundTripOfDefinedInstructions :=
  ⟨rfl, decodeFields_encode_loadi, decodeFields_encode_add, by decide, by decide⟩

/-- Settles O9: the assembler encodes the line's instruction, so decoding its word gives that instruction back. -/
theorem assemblerAcceptsTheLegalLines : Obligations.AssemblerAcceptsTheLegalLines := by
  refine fun line => ⟨fun h => ?_, fun h => ?_⟩
  · simp [AsmLine.assemble, AsmLine.instr, h]
  · obtain ⟨i, hi, hwf, hdesc⟩ := AsmLine.instr_of_legal h
    refine ⟨encode i, ?_, ?_⟩
    · rw [AsmLine.assemble, hi, Option.map_some]
    · rw [decode_encode]
      exact ⟨hi, hwf, hdesc⟩

end Sys2Proof
end

section
/-! PROOFS. What one evaluation does: the remaining statements about `loadi`, `add` and the unrecognized opcodes
(42_loadi.md, 43_add.md, 44_unrecognized.md), and about every instruction (40_cycle.md section 3, 60_exceptions.md). -/

namespace Sys2Proof.Machine

/-! ### The two ends of the range -/

/-- `wrap_N` of a sum of two N-bit numbers past the upper end of the range (R113). -/
theorem wrapN_of_overflow {n : Nat} (hn : 1 ≤ n) {y z : Int} (hy : InRange n y) (hz : InRange n z)
    (h : 2 ^ (n - 1) ≤ y + z) : wrapN n (y + z) = y + z - 2 ^ n ∧ y + z - 2 ^ n < 0 := by
  have e : (2 : Int) ^ n = 2 * 2 ^ (n - 1) := (mul_pow_sub_one (by omega) 2).symm
  have hwrap : wrapN n (y + z) = wrapN n (y + z - 2 ^ n) := by
    simpa [wrapN] using (Int.sub_bmod_right (y + z) (2 ^ n)).symm
  rw [hwrap, wrapN_of_inRange n hn] <;> omega

/-- `wrap_N` of a sum of two N-bit numbers past the lower end of the range (R113). -/
theorem wrapN_of_underflow {n : Nat} (hn : 1 ≤ n) {y z : Int} (hy : InRange n y) (hz : InRange n z)
    (h : y + z < -(2 ^ (n - 1))) : wrapN n (y + z) = y + z + 2 ^ n ∧ 0 ≤ y + z + 2 ^ n := by
  have e : (2 : Int) ^ n = 2 * 2 ^ (n - 1) := (mul_pow_sub_one (by omega) 2).symm
  have hwrap : wrapN n (y + z) = wrapN n (y + z + 2 ^ n) := by
    simpa [wrapN] using (Int.add_bmod_right (y + z) (2 ^ n)).symm
  rw [hwrap, wrapN_of_inRange n hn] <;> omega

/-! ### The unrecognized opcodes as one -/

/-- All thirteen share one meaning, which reads none of their bits (R120). -/
theorem exec_of_three_le_opcode {i : Instr} (h : 3 ≤ i.opcode.toNat) (s : State) : exec i s = s.unrecognized := by
  cases i with
  | halt | loadi _ _ | add _ _ _ => simp [Instr.opcode] at h
  | unrec3 _ | unrec4 _ | unrec5 _ | unrec6 _ | unrec7 _ | unrec8 _ | unrec9 _ | unrec10 _ | unrec11 _
  | unrec12 _ | unrec13 _ | unrec14 _ | unrec15 _ => rfl

theorem State.unrecognized_of_strict {s : State} (h : s.config.strictOpcode = true) :
    s.unrecognized = .next (s.raise .invalidOpcode) := if_pos h

theorem State.unrecognized_of_lenient {s : State} (h : s.config.strictOpcode = false) :
    s.unrecognized = .next s := if_neg (by simp [h])

/-! ### Well-formed and ill-formed instructions -/

/-- An instruction that uses an index of 4 to 15 raises `InvalidRegister` and does nothing else (D3). -/
theorem exec_of_illFormed {i : Instr} (h : i.wellFormed = false) (s : State) :
    exec i s = .next (s.raise .invalidRegister) := by
  cases i with
  | loadi d imm =>
    have hd : ¬ d.toNat ≤ 3 := of_decide_eq_false h
    exact execLoadi_of_four_le (by omega) imm s
  | add d a b =>
    have hdab : (¬ d.toNat ≤ 3 ∨ ¬ a.toNat ≤ 3) ∨ ¬ b.toNat ≤ 3 := by
      simpa only [Instr.wellFormed, namesRegister, Bool.and_eq_false_iff, decide_eq_false_iff_not] using h
    exact execAdd_of_four_le (by omega) s
  | halt | unrec3 _ | unrec4 _ | unrec5 _ | unrec6 _ | unrec7 _ | unrec8 _ | unrec9 _ | unrec10 _ | unrec11 _
  | unrec12 _ | unrec13 _ | unrec14 _ | unrec15 _ => exact absurd h nofun

/-- A well-formed instruction leaves the fault register, but for the `InvalidOpcode` of an unrecognized one. -/
theorem exec_fault_of_wellFormed {i : Instr} (h : i.wellFormed = true) {s t : State} (he : exec i s = .next t) :
    t.fault = s.fault ∨ t.fault = .invalidOpcode := by
  cases i with
  | halt =>
    obtain rfl : s.clearRunning = t := Host.Outcome.next.inj he
    exact .inl rfl
  | loadi d imm =>
    have hd : d.toNat ≤ 3 := of_decide_eq_true h
    obtain ⟨r, -, e⟩ | ⟨h4, -⟩ := execLoadi_cases d imm s
    · obtain rfl := Host.Outcome.next.inj (e.symm.trans he)
      exact .inl rfl
    · omega
  | add d a b =>
    have hdab : (d.toNat ≤ 3 ∧ a.toNat ≤ 3) ∧ b.toNat ≤ 3 := by simpa [Instr.wellFormed, namesRegister] using h
    obtain ⟨rd, ra, rb, -, -, -, e⟩ | ⟨h4, -⟩ := execAdd_cases d a b s
    · obtain rfl := Host.Outcome.next.inj (e.symm.trans he)
      exact .inl rfl
    · omega
  | unrec3 _ | unrec4 _ | unrec5 _ | unrec6 _ | unrec7 _ | unrec8 _ | unrec9 _ | unrec10 _ | unrec11 _
  | unrec12 _ | unrec13 _ | unrec14 _ | unrec15 _ =>
    obtain ⟨-, e⟩ | ⟨-, e⟩ := s.unrecognized_cases <;> obtain rfl := Host.Outcome.next.inj (e.symm.trans he)
    · exact .inr rfl
    · exact .inl rfl

/-! ### What every evaluation leaves -/

/-- The one update an evaluation was, read off its next state (R88). -/
theorem exec_next_cases {i : Instr} {s t : State} (he : exec i s = .next t) :
    t = s.clearRunning ∨ (∃ r v, t = s.writeReg r v) ∨
      (∃ c, (c = .invalidRegister ∨ c = .invalidOpcode) ∧ t = s.raise c) ∨ t = s := by
  obtain e | ⟨r, v, -, e⟩ | e | ⟨-, e⟩ | e := exec_cases i s <;>
    obtain rfl := Host.Outcome.next.inj (e.symm.trans he)
  · exact .inl rfl
  · exact .inr (.inl ⟨r, v, rfl⟩)
  · exact .inr (.inr (.inl ⟨_, .inl rfl, rfl⟩))
  · exact .inr (.inr (.inl ⟨_, .inr rfl, rfl⟩))
  · exact .inr (.inr (.inr rfl))

theorem exec_pc {i : Instr} {s t : State} (he : exec i s = .next t) : t.pc = s.pc := by
  obtain rfl | ⟨r, v, rfl⟩ | ⟨c, -, rfl⟩ | rfl := exec_next_cases he <;> rfl

theorem exec_fault {i : Instr} {s t : State} (he : exec i s = .next t) :
    t.fault = s.fault ∨ t.fault = .invalidRegister ∨ t.fault = .invalidOpcode := by
  obtain rfl | ⟨r, v, rfl⟩ | ⟨c, hc, rfl⟩ | rfl := exec_next_cases he
  · exact .inl rfl
  · exact .inl rfl
  · exact .inr hc
  · exact .inl rfl

/-- An evaluation that leaves a cause where there was none did nothing but record it. -/
theorem exec_eq_raise {i : Instr} {s t : State} (he : exec i s = .next t) (hs : s.fault = .none)
    (ht : t.fault ≠ .none) : t = s.raise t.fault := by
  obtain rfl | ⟨r, v, rfl⟩ | ⟨c, -, rfl⟩ | rfl := exec_next_cases he
  · exact absurd hs ht
  · exact absurd hs ht
  · rfl
  · exact absurd hs ht

theorem exec_setPc {i : Instr} {s t : State} (he : exec i s = .next t) (p : Nat) :
    exec i { s with pc := p } = .next { t with pc := p } := by
  obtain rfl | ⟨r, v, h⟩ | ⟨c, -, h⟩ | h := exec_uniform i s
  · obtain rfl : s.clearRunning = t := Host.Outcome.next.inj he
    rfl
  all_goals
    obtain rfl := Host.Outcome.next.inj ((h s rfl rfl).symm.trans he)
    exact h _ rfl rfl

/-- Whatever the fault register holds, an evaluation records the same cause over it or leaves it (R30). -/
theorem exec_setFault (i : Instr) (s : State) :
    (∃ c', (c' = .invalidRegister ∨ c' = .invalidOpcode) ∧
      ∀ c, exec i { s with fault := c } = .next { s with fault := c' }) ∨
    (∃ t : State, ∀ c, exec i { s with fault := c } = .next { t with fault := c }) := by
  obtain rfl | ⟨r, v, h⟩ | ⟨c', hc', h⟩ | h := exec_uniform i s
  · exact .inr ⟨s.clearRunning, fun _ => rfl⟩
  · exact .inr ⟨s.writeReg r v, fun _ => h _ rfl rfl⟩
  · exact .inl ⟨c', hc', fun _ => h _ rfl rfl⟩
  · exact .inr ⟨s, fun _ => h _ rfl rfl⟩

/-! ### The obligations about `loadi` -/

/-- Settles O18: the value written depends on the width and the immediate, the trap on the field alone. -/
theorem loadiReadsNoRegister : Obligations.LoadiReadsNoRegister := by
  intro s y d imm
  by_cases hd : d.toNat < 4
  · obtain ⟨r, hr⟩ : ∃ r : Fin 4, d.toNat = r.val := ⟨⟨_, hd⟩, rfl⟩
    refine ⟨_, _, execLoadi_of_index hr imm s, execLoadi_of_index hr imm _, fun q hq => ?_, rfl, rfl, rfl, rfl,
      fun q hq => ?_⟩
    · obtain rfl : q = r := Fin.ext (hq.symm.trans hr)
      rw [State.readReg_writeReg_same, State.readReg_writeReg_same]
    · have hne : q ≠ r := fun e => hq (e ▸ hr)
      exact ⟨s.readReg_writeReg_ne r _ q hne, State.readReg_writeReg_ne _ r _ q hne⟩
  · have hd' : 4 ≤ d.toNat := by omega
    refine ⟨_, _, execLoadi_of_four_le hd' imm s, execLoadi_of_four_le hd' imm _, fun q hq => ?_, rfl, rfl, rfl, rfl,
      fun _ _ => ⟨rfl, rfl⟩⟩
    omega

/-- Settles O19: the second write puts the same value in the same cell, the second trap the same cause. -/
theorem loadiIsIdempotent : Obligations.LoadiIsIdempotent := by
  intro s d imm
  obtain ⟨r, hd, e⟩ | ⟨hd, e⟩ := execLoadi_cases d imm s
  · refine ⟨_, e, (execLoadi_of_index hd imm _).trans (congrArg _ ?_)⟩
    simp [State.writeReg]
  · exact ⟨_, e, execLoadi_of_four_le hd imm _⟩

/-- Settles O20: a field of 4 to 15 names no register. -/
theorem loadiBadRegisterRaises : Obligations.LoadiBadRegisterRaises :=
  fun s _ imm hd => execLoadi_of_four_le hd imm s

/-! ### The obligations about `add` -/

/-- Settles O22: the sum written is of the cells before the write, whichever of the three are the same. -/
theorem addReadsBeforeItWrites : Obligations.AddReadsBeforeItWrites := by
  refine ⟨fun s d a b rd ra rb hd ha hb => ?_, fun s => ?_, fun s => ?_⟩
  · exact ⟨_, execAdd_of_indices hd ha hb s, State.readReg_writeReg_same .., s.sameRegsBut_writeReg rd _,
      s.sameControl_writeReg rd _⟩
  · have he := execAdd_of_indices (d := 0) (a := 0) (b := 1) (rd := 0) (ra := 0) (rb := 1) (by decide) (by decide)
      (by decide) s
    exact ⟨_, he, State.readReg_writeReg_same ..⟩
  · have he := execAdd_of_indices (d := 1) (a := 1) (b := 1) (rd := 1) (ra := 1) (rb := 1) (by decide) (by decide)
      (by decide) s
    refine ⟨_, he, ?_⟩
    rw [State.readReg_writeReg_same, two_mul]

/-- Settles O23: past either end of the range `wrap_N` comes back by one turn of 2^N. -/
theorem addWrapsOnOverflow : Obligations.AddWrapsOnOverflow := by
  intro s d a b rd ra rb hw hx hd ha hb
  refine ⟨_, execAdd_of_indices hd ha hb s, s.sameRegsBut_writeReg rd _, s.sameControl_writeReg rd _, fun h => ?_,
    fun h => ?_⟩ <;> rw [State.readReg_writeReg_same]
  · obtain ⟨e, hneg⟩ := wrapN_of_overflow (by omega) (hx ra) (hx rb) h
    exact ⟨e, e ▸ hneg⟩
  · obtain ⟨e, hpos⟩ := wrapN_of_underflow (by omega) (hx ra) (hx rb) h
    exact ⟨e, e ▸ hpos⟩

/-- Settles O24: `wrap_N` reads an N-bit pattern as signed, and the pattern of a sum is the sum of the patterns. -/
theorem addIsPatternAddition : Obligations.AddIsPatternAddition := by
  intro s d a b rd ra rb hd ha hb
  refine ⟨_, execAdd_of_indices hd ha hb s, ?_⟩
  rw [State.readReg_writeReg_same, wrapN_eq_toInt, BitVec.ofInt_add]

/-- Settles O25: two operands of one sign can leave the range on their own side alone, two of different sign on none. -/
theorem addSignCombinations : Obligations.AddSignCombinations := by
  intro s d a b rd ra rb hw hx hd ha hb
  have hn : 1 ≤ s.config.width := by omega
  obtain ⟨hla, hua⟩ := hx ra
  obtain ⟨hlb, hub⟩ := hx rb
  refine ⟨_, execAdd_of_indices hd ha hb s, fun hpa hpb => ?_, fun h => ?_, fun hna hnb => ?_, fun h0 => ?_⟩ <;>
    rw [State.readReg_writeReg_same]
  · split
    · exact wrapN_of_inRange _ hn _ (by omega) (by omega)
    · obtain ⟨e, hneg⟩ := wrapN_of_overflow hn (hx ra) (hx rb) (by omega)
      exact ⟨e, e ▸ hneg⟩
  · exact wrapN_of_inRange _ hn _ (by omega) (by omega)
  · split
    · exact wrapN_of_inRange _ hn _ (by omega) (by omega)
    · obtain ⟨e, hpos⟩ := wrapN_of_underflow hn (hx ra) (hx rb) (by omega)
      exact ⟨e, e ▸ hpos⟩
  · rw [h0, zero_add, wrapN_of_inRange _ hn _ hlb hub]

/-- Settles O26: any field of 4 to 15 names no register. -/
theorem addBadRegisterRaises : Obligations.AddBadRegisterRaises :=
  fun s _ _ _ h => execAdd_of_four_le h s

/-! ### The obligations about the unrecognized opcodes -/

/-- Settles O27: the thirteen rows share one meaning, which is nothing in lenient mode. -/
theorem lenientUnrecognizedDoesNothing : Obligations.LenientUnrecognizedDoesNothing := by
  intro s n h
  have hs : s.unrecognized = .next s := State.unrecognized_of_lenient h
  exact ⟨hs, hs, hs, hs, hs, hs, hs, hs, hs, hs, hs, hs, hs⟩

/-- Settles O28: an opcode of 3 to 15 has the shared meaning, which raises in strict mode. -/
theorem strictUnrecognizedRaises : Obligations.StrictUnrecognizedRaises :=
  fun s _ hs hi => (exec_of_three_le_opcode hi s).trans (State.unrecognized_of_strict hs)

/-! ### The obligations about every instruction -/

/-- Settles O29: each case of `exec_cases` is one update or none. -/
theorem evaluationDoesAtMostOneThing : Obligations.EvaluationDoesAtMostOneThing := by
  intro i s
  obtain e | ⟨r, v, -, e⟩ | e | ⟨-, e⟩ | e := exec_cases i s <;> refine ⟨_, e, ?_⟩
  · exact .inr (.inl rfl)
  · exact .inr (.inr (.inr ⟨r, v, rfl⟩))
  · exact .inr (.inr (.inl ⟨.invalidRegister, nofun, rfl⟩))
  · exact .inr (.inr (.inl ⟨.invalidOpcode, nofun, rfl⟩))
  · exact .inl rfl

/-- Settles O33: an ill-formed instruction traps, and a well-formed one records `InvalidOpcode` if anything. -/
theorem invalidRegisterExactlyWhenIllFormed : Obligations.InvalidRegisterExactlyWhenIllFormed := by
  intro i s hs
  refine ⟨⟨fun ⟨t, he, ht⟩ => ?_, fun h => ⟨_, exec_of_illFormed h s, rfl⟩⟩, fun h => exec_of_illFormed h s⟩
  rw [Bool.eq_false_iff]
  intro hwf
  obtain h | h := exec_fault_of_wellFormed hwf he
  · exact hs (h.symm.trans ht)
  · exact absurd (h.symm.trans ht) nofun

end Sys2Proof.Machine
end

section
/-! PROOFS. The fetches, the end of the machine's steps and the transition table (40_cycle.md sections 1 and 4). -/

namespace Sys2Proof.Machine

/-! ### The fetch past the end, and no step once stopped -/

section Loop

variable {s t : State}

theorem State.fetch_of_memRead_eq_none (h : s.memRead s.pc = none) :
    s.fetch = (none, s.raise .programOutOfBounds) := by
  obtain ⟨w, hw, -⟩ | ⟨-, e⟩ := s.fetch_cases
  · exact absurd (hw.symm.trans h) nofun
  · exact e

theorem step_of_memRead_eq_none (hl : s.loopState = .running) (h : s.memRead s.pc = none) :
    step s = .next (s.raise .programOutOfBounds) := by
  rw [step_of_running hl, State.fetch_of_memRead_eq_none h]
  rfl

theorem step_of_halted (hl : s.loopState = .halted) : step s = .fault .halted := by
  rw [step, State.iteration, hl]

theorem step_of_faulted (hl : s.loopState = .faulted) : step s = .fault .faulted := by
  rw [step, State.iteration, hl]

/-- The one step that leaves the machine Halted is that of a `halt` word (R91). -/
theorem step_eq_halt (h : step s = .next t) (ht : t.running = false) :
    ∃ w, s.memRead s.pc = some w ∧ decode w = .halt ∧ t = s.advancePc.clearRunning := by
  obtain ⟨w, hw, hd⟩ := (step_running_eq_false_iff h).1 ht
  obtain ⟨hr, hf, -⟩ := step_cases h
  refine ⟨w, hw, hd, ?_⟩
  rw [step_of_memRead_eq_some (s.loopState_running_iff.2 ⟨hr, hf⟩) hw, hd] at h
  exact (Host.Outcome.next.inj h).symm

/-- A step leaves the counter as its fetch did: one higher, or at or above L where it was (D6). -/
theorem step_pc (h : step s = .next t) :
    t.pc = if s.pc < s.config.program.length then s.pc + 1 else s.pc := by
  obtain ⟨-, -, ⟨w, hw, he⟩ | ⟨hn, rfl⟩⟩ := step_cases h
  · obtain ⟨hlt, -⟩ := (s.memRead_eq_some_iff s.pc w).1 hw
    rw [if_pos hlt, exec_pc he, State.advancePc_pc]
  · have hge : s.config.program.length ≤ s.pc := (s.memRead_eq_none_iff s.pc).1 hn
    rw [if_neg (by omega), State.raise_pc]

end Loop

/-! ### Fetches one after the other (R83) -/

/-- The last of `n + 1` fetches is made in the state the first `n` leave. -/
theorem fetchTimes_succ_last (n : Nat) (s : State) :
    fetchTimes (n + 1) s =
      ((fetchTimes n s).1 ++ [(fetchTimes n s).2.fetch.1], (fetchTimes n s).2.fetch.2) := by
  induction n generalizing s with
  | zero => rfl
  | succ n ih => rw [fetchTimes, ih, fetchTimes]; rfl

theorem fetchTimes_of_le {s : State} (hpc : s.pc = 0) {n : Nat} (hn : n ≤ s.config.program.length) :
    fetchTimes n s = ((s.config.program.take n).map some, { s with pc := n }) := by
  induction n with
  | zero => simp [fetchTimes, ← hpc]
  | succ n ih =>
    have hw : State.memRead { s with pc := n } n = some s.config.program[n] :=
      List.getElem?_eq_getElem hn
    rw [fetchTimes_succ_last, ih (by omega), State.fetch_of_memRead_eq_some hw, List.take_add_one,
      List.getElem?_eq_getElem hn, List.map_append]
    rfl

/-! ### The step by the opcode of the fetched word -/

section Table

variable {s : State} {w : Word}

theorem step_of_opcode_eq_zero (hl : s.loopState = .running) (hw : s.memRead s.pc = some w)
    (hop : (decodeFields w).opcode = 0) : step s = .next s.advancePc.clearRunning := by
  rw [step_of_memRead_eq_some hl hw, decode, Decoded.instr_of_opcode_eq_zero hop]
  rfl

theorem step_of_opcode_eq_one (hl : s.loopState = .running) (hw : s.memRead s.pc = some w)
    (hop : (decodeFields w).opcode = 1) :
    step s = execLoadi (decodeFields w).operand1 (decodeFields w).immediate s.advancePc := by
  rw [step_of_memRead_eq_some hl hw, decode, Decoded.instr_of_opcode_eq_one hop]
  rfl

theorem step_of_opcode_eq_two (hl : s.loopState = .running) (hw : s.memRead s.pc = some w)
    (hop : (decodeFields w).opcode = 2) :
    step s =
      execAdd (decodeFields w).operand1 (decodeFields w).operand2 (decodeFields w).operand3 s.advancePc := by
  rw [step_of_memRead_eq_some hl hw, decode, Decoded.instr_of_opcode_eq_two hop]
  rfl

theorem step_of_three_le_opcode (hl : s.loopState = .running) (hw : s.memRead s.pc = some w)
    (hop : 3 ≤ (decodeFields w).opcode.toNat) : step s = s.advancePc.unrecognized := by
  rw [step_of_memRead_eq_some hl hw]
  exact exec_of_three_le_opcode (by rwa [decode_opcode]) _

end Table

/-! ### The obligations -/

/-- Settles O11: at L and above no word stands at the counter. -/
theorem fetchPastTheEndRaises : Obligations.FetchPastTheEndRaises := by
  intro s h
  have hn : s.memRead s.pc = none := (s.memRead_eq_none_iff s.pc).2 h
  exact ⟨State.fetch_of_memRead_eq_none hn,
    fun hr hf => step_of_memRead_eq_none (s.loopState_running_iff.2 ⟨hr, hf⟩) hn⟩

/-- Settles O12: by induction on the number of fetches, each made in the state the ones before it leave. -/
theorem fetchesReturnTheProgramInOrder : Obligations.FetchesReturnTheProgramInOrder := by
  intro s hpc
  refine ⟨fun n hn => by simp [fetchTimes_of_le hpc hn], ?_⟩
  have hn : State.memRead { s with pc := s.config.program.length } s.config.program.length = none :=
    List.getElem?_eq_none le_rfl
  rw [fetchTimes_succ_last, fetchTimes_of_le hpc le_rfl, State.fetch_of_memRead_eq_none hn, List.take_length]
  rfl

/-- Settles O14: a stopped machine has no step, and only a `halt` word clears the running flag. -/
theorem haltedAndFaultedAreTerminal : Obligations.HaltedAndFaultedAreTerminal := by
  refine ⟨fun s hr => step_of_halted (s.loopState_halted_iff.2 hr),
    fun s hr hf => step_of_faulted (s.loopState_faulted_iff.2 ⟨hr, hf⟩),
    fun s k h => runSteps_of_stopped (by simpa [State.stopped] using h) k, fun s t k h ht => ?_⟩
  obtain ⟨w, hw, hd, rfl⟩ := step_eq_halt h ht
  refine ⟨rfl, ⟨w, hw, ?_⟩, runSteps_of_stopped rfl k⟩
  rw [← decode_opcode, hd]
  rfl

/-- Settles O15: each row is the meaning of the fetched word in the state after the fetch. -/
theorem transitionTable : Obligations.TransitionTable := by
  intro s hr hf
  have hl : s.loopState = .running := s.loopState_running_iff.2 ⟨hr, hf⟩
  refine ⟨fun h => (fetchPastTheEndRaises s h).2 hr hf, fun w hw => ⟨fun hop => ?_, fun hop => ?_, fun hop => ?_,
    fun hop => ?_⟩⟩
  · exact step_of_opcode_eq_zero hl hw (BitVec.eq_of_toNat_eq hop)
  · rw [step_of_opcode_eq_one hl hw (BitVec.eq_of_toNat_eq hop)]
    exact ⟨fun hd => execLoadi_of_four_le hd _ _, fun d hd => execLoadi_of_index hd _ _⟩
  · rw [step_of_opcode_eq_two hl hw (BitVec.eq_of_toNat_eq hop)]
    exact ⟨fun h => execAdd_of_four_le h _, fun d a b hd ha hb => execAdd_of_indices hd ha hb _⟩
  · rw [step_of_three_le_opcode hl hw hop]
    split
    · next hs => exact State.unrecognized_of_strict hs
    · next hs => exact State.unrecognized_of_lenient (Bool.eq_false_iff.2 hs)

/-- Settles O30: an evaluation keeps the counter, so a step leaves what its fetch left. -/
theorem counterWrittenByFetchAlone : Obligations.CounterWrittenByFetchAlone :=
  ⟨fun _ _ _ => exec_pc, fun _ _ _ p he => exec_setPc he p, fun _ _ => step_pc, fun _ => rfl⟩

/-- Settles O32: a step starts without a fault, so one found after it is of its fetch or of its evaluation alone. -/
theorem faultRegisterIsSticky : Obligations.FaultRegisterIsSticky := by
  refine ⟨fun _ _ _ => exec_fault, fun s t h => ?_, fun s t h hge => ?_, exec_setFault, fun s k h => ?_, fun _ => rfl⟩
  · by_cases ht : t.fault = .none
    · exact .inl ht
    obtain ⟨-, hf, ⟨w, hw, he⟩ | ⟨hn, rfl⟩⟩ := step_cases h
    · have hraise : t = s.advancePc.raise t.fault := exec_eq_raise he hf ht
      have hcause := (exec_fault he).resolve_left fun e => ht (e.trans hf)
      exact .inr (.inr ⟨hcause, w, hw, he.trans (congrArg _ hraise), hraise⟩)
    · exact .inr (.inl ⟨(s.memRead_eq_none_iff s.pc).1 hn, rfl⟩)
  · obtain ⟨hr, hf, -⟩ := step_cases h
    obtain rfl := Host.Outcome.next.inj (((fetchPastTheEndRaises s hge).2 hr hf).symm.trans h)
    rfl
  · rw [runSteps_of_stopped (by simp [State.stopped, h])]

end Sys2Proof.Machine
end

section
/-! PROOFS. An instruction's write and the next instruction's reads (70_reset_and_hazards.md section 3). -/

namespace Sys2Proof.Machine

section Pairs

variable {s : State}

theorem toNat_ofNat_fin (r : Fin 4) : (BitVec.ofNat 4 r).toNat = r.val :=
  toNat_ofNat_of_le_three (by omega)

theorem State.readReg_writeReg (s : State) (r q : Fin 4) (v : Int) :
    (s.writeReg r v).readReg q = if q = r then v else s.readReg q := by
  split
  · next h => rw [h, State.readReg_writeReg_same]
  · next h => exact s.readReg_writeReg_ne r v q h

theorem step_of_encode {i : Instr} (hl : s.loopState = .running) (h : s.memRead s.pc = some (encode i)) :
    step s = exec i s.advancePc := by
  rw [step_of_memRead_eq_some hl h, decode_encode]

/-- An `add` that comes right after a write to register `d` reads the value written (R188). -/
theorem step_add_after_write (hl : s.loopState = .running) (d e p q : Fin 4) (v : Int)
    (h : s.memRead (s.pc + 1) = some (encode (.add (BitVec.ofNat 4 e) (BitVec.ofNat 4 p) (BitVec.ofNat 4 q)))) :
    ∃ u, step (s.advancePc.writeReg d v) = .next u ∧ u.readReg e = wrapN s.config.width
      ((if p = d then v else s.readReg p) + (if q = d then v else s.readReg q)) := by
  have hl' : (s.advancePc.writeReg d v).loopState = .running := hl
  refine ⟨_, (step_of_encode hl' h).trans
    (execAdd_of_indices (toNat_ofNat_fin e) (toNat_ofNat_fin p) (toNat_ofNat_fin q) _), ?_⟩
  simp [State.readReg_writeReg]

/-- The pair whose first instruction is a `loadi`. -/
theorem loadi_then_add (d e p q : Fin 4) (imm : Immediate) (hl : s.loopState = .running) (hw : 10 ≤ s.config.width)
    (h0 : s.memRead s.pc = some (encode (.loadi (BitVec.ofNat 4 d) imm)))
    (h1 : s.memRead (s.pc + 1) = some (encode (.add (BitVec.ofNat 4 e) (BitVec.ofNat 4 p) (BitVec.ofNat 4 q)))) :
    ∃ t u, step s = .next t ∧ step t = .next u ∧ u.readReg e = wrapN s.config.width
      ((if p = d then (imm.toNat : Int) else s.readReg p) + (if q = d then (imm.toNat : Int) else s.readReg q)) := by
  have ht := (step_of_encode hl h0).trans (execLoadi_of_index (toNat_ofNat_fin d) imm _)
  obtain ⟨u, hu, hv⟩ := step_add_after_write hl d e p q (zextN s.config.width imm) h1
  exact ⟨_, u, ht, hu, zextN_eq s.config.width (by omega) imm ▸ hv⟩

end Pairs

/-! ### The obligations -/

/-- Settles O35: both writes leave the next step a state whose register holds the value written. -/
theorem nextInstructionSeesTheWrite : Obligations.NextInstructionSeesTheWrite := by
  refine ⟨fun s d e p q imm hr hf hw h0 h1 => ?_, fun s d a b e p q v hr hf h0 h1 hv => ?_, fun s hr hf hw h0 h1 => ?_⟩
  all_goals have hl : s.loopState = .running := s.loopState_running_iff.2 ⟨hr, hf⟩
  · exact loadi_then_add d e p q imm hl hw h0 h1
  · subst hv
    obtain ⟨u, hu, hx⟩ := step_add_after_write hl d e p q _ h1
    exact ⟨_, u, (step_of_encode hl h0).trans
      (execAdd_of_indices (toNat_ofNat_fin d) (toNat_ofNat_fin a) (toNat_ofNat_fin b) _), hu, hx⟩
  · exact loadi_then_add 1 2 0 1 200 hl hw h0 h1

end Sys2Proof.Machine
end

section
/-! PROOFS. Resets, runs and their ends (10_state.md sections 6 and 7, 40_cycle.md section 6, 70_reset_and_hazards.md). -/

namespace Sys2Proof.Machine

/-! ### One step of a run -/

section Step

variable {s t : State}

theorem State.after_of_next (h : step s = .next t) : s.after (step s) = t := by rw [h]; rfl

theorem State.not_stopped_iff : s.stopped = false ↔ s.loopState = .running := by
  rw [← Bool.not_eq_true, s.stopped_iff, not_not]

/-- What one round of the loop does: nothing in a stopped machine, else the fetch of a word and its evaluation, or the
fault past the end. -/
theorem after_step_cases (s : State) :
    (s.stopped = true ∧ s.after (step s) = s) ∨
    (s.loopState = .running ∧ ∃ w t, s.memRead s.pc = some w ∧ s.pc < s.config.program.length ∧
      exec (decode w) s.advancePc = .next t ∧ step s = .next t ∧ t.pc = s.pc + 1) ∨
    (s.loopState = .running ∧ s.memRead s.pc = none ∧ s.config.program.length ≤ s.pc ∧
      step s = .next (s.raise .programOutOfBounds)) := by
  cases hs : s.stopped with
  | true => exact .inl ⟨rfl, after_step_of_stopped hs⟩
  | false =>
    have hl := State.not_stopped_iff.1 hs
    cases hw : s.memRead s.pc with
    | none =>
      exact .inr (.inr ⟨hl, rfl, (s.memRead_eq_none_iff s.pc).1 hw, step_of_memRead_eq_none hl hw⟩)
    | some w =>
      obtain ⟨t, he, -⟩ := evaluationDoesAtMostOneThing (decode w) s.advancePc
      obtain ⟨hlt, -⟩ := (s.memRead_eq_some_iff s.pc w).1 hw
      exact .inr (.inl ⟨hl, w, t, rfl, hlt, he, (step_of_memRead_eq_some hl hw).trans he, exec_pc he⟩)

theorem step_ne_next_of_stopped (hs : s.stopped = true) : step s ≠ .next t := by
  intro h
  obtain ⟨hr, hf, -⟩ := step_cases h
  exact s.stopped_iff.1 hs (s.loopState_running_iff.2 ⟨hr, hf⟩)

/-- A step that halts the machine leaves no fault (R36b). -/
theorem step_keeps_halted_faultless (h : step s = .next t) (ht : t.running = false) : t.fault = .none := by
  obtain ⟨-, hf, -⟩ := step_cases h
  obtain ⟨-, -, -, rfl⟩ := step_eq_halt h ht
  exact hf

end Step

/-! ### Rounds put together -/

theorem runSteps_add (m n : Nat) (s : State) : runSteps (m + n) s = runSteps n (runSteps m s) := by
  induction m generalizing s with
  | zero => rw [Nat.zero_add, runSteps]
  | succ m ih => rw [Nat.succ_add, runSteps, ih, runSteps]

theorem runSteps_succ_last (n : Nat) (s : State) :
    runSteps (n + 1) s = (runSteps n s).after (step (runSteps n s)) := runSteps_add n 1 s

/-- What holds of a state and is kept by every step holds after any number of rounds. -/
theorem runSteps_induction {P : State → Prop} (hstep : ∀ s t, P s → step s = .next t → P t) (n : Nat) {s : State}
    (hs : P s) : P (runSteps n s) := by
  induction n generalizing s with
  | zero => exact hs
  | succ n ih =>
    refine ih ?_
    cases h : step s with
    | next t => exact hstep s t hs h
    | fault _ => exact hs
    | refused _ => exact hs

/-! ### The counter along a run -/

theorem runSteps_construct_pc (c : Config) (n : Nat) :
    ((runSteps n (State.construct c)).loopState = .running → (runSteps n (State.construct c)).pc = n) ∧
      (runSteps n (State.construct c)).pc ≤ min n c.program.length := by
  induction n with
  | zero => exact ⟨fun _ => rfl, Nat.zero_le _⟩
  | succ n ih =>
    have hc : (runSteps n (State.construct c)).config = c := runSteps_config n _
    rw [runSteps_succ_last]
    generalize runSteps n (State.construct c) = s at *
    obtain ⟨hrun, hle⟩ := ih
    obtain ⟨hs, e⟩ | ⟨hl, w, t, -, hlt, -, e, hpc⟩ | ⟨-, -, -, e⟩ := after_step_cases s
    · rw [e]
      exact ⟨fun hl => absurd hl (s.stopped_iff.1 hs), by omega⟩
    · have hn : s.pc = n := hrun hl
      rw [hc] at hlt
      rw [State.after_of_next e, hpc]
      exact ⟨fun _ => by omega, by omega⟩
    · rw [State.after_of_next e]
      refine ⟨fun hl => ?_, by rw [State.raise_pc]; omega⟩
      exact absurd (State.loopState_running_iff _ |>.1 hl).2 nofun

/-- While a machine is Running, the next word it fetches is the one its number of rounds counts to. -/
theorem memRead_runSteps_construct {c : Config} {n : Nat}
    (hl : (runSteps n (State.construct c)).loopState = .running) :
    (runSteps n (State.construct c)).memRead (runSteps n (State.construct c)).pc = c.program[n]? := by
  rw [(runSteps_construct_pc c n).1 hl]
  exact State.memRead_of_config_eq (runSteps_config n _) n

/-! ### The end of a run (R95, R96) -/

theorem runSteps_stopped (s : State) : (runSteps (s.config.program.length - s.pc + 1) s).stopped = true := by
  induction hm : s.config.program.length - s.pc generalizing s with
  | zero =>
    rw [runSteps_succ_last, runSteps]
    obtain ⟨hs, e⟩ | ⟨-, _, _, -, hlt, -⟩ | ⟨hl, -, -, e⟩ := after_step_cases s
    · rwa [e]
    · omega
    · rw [State.after_of_next e]
      simp [State.stopped]
  | succ m ih =>
    rw [runSteps]
    obtain ⟨hs, e⟩ | ⟨-, w, t, -, hlt, -, e, hpc⟩ | ⟨-, -, hge, -⟩ := after_step_cases s
    · rw [e, runSteps_of_stopped hs]
      exact hs
    · rw [State.after_of_next e]
      exact ih t (by rw [step_config e, hpc]; omega)
    · omega

theorem endOfRun_stopped (c : Config) : (endOfRun c).stopped = true := runSteps_stopped (State.construct c)

theorem endOfRun_fault_of_halted (c : Config) : (endOfRun c).running = false → (endOfRun c).fault = .none :=
  runSteps_induction (P := fun s => s.running = false → s.fault = .none)
    (fun _ _ _ h ht => step_keeps_halted_faultless h ht) _ (fun _ => rfl)

/-! ### Well-formed programs (R185) -/

/-- A `loadi` or an `add` whose register indices are legal is a step that goes on running. -/
theorem step_of_legalBeforeHalt {s : State} {w : Word} (hl : s.loopState = .running) (hw : s.memRead s.pc = some w)
    (h : legalBeforeHalt w = true) : ∃ t, step s = .next t ∧ t.loopState = .running := by
  simp only [legalBeforeHalt, namesRegister, Bool.or_eq_true, Bool.and_eq_true, decide_eq_true_iff] at h
  obtain ⟨hop, hd⟩ | ⟨⟨⟨hop, hd⟩, ha⟩, hb⟩ := h
  · rw [step_of_opcode_eq_one hl hw hop]
    obtain ⟨r, -, e⟩ | ⟨h4, -⟩ := execLoadi_cases (decodeFields w).operand1 (decodeFields w).immediate s.advancePc
    · exact ⟨_, e, hl⟩
    · omega
  · rw [step_of_opcode_eq_two hl hw hop]
    obtain ⟨rd, ra, rb, -, -, -, e⟩ | ⟨h4, -⟩ := execAdd_cases (decodeFields w).operand1 (decodeFields w).operand2
      (decodeFields w).operand3 s.advancePc
    · exact ⟨_, e, hl⟩
    · omega

theorem haltsAt_iff (p : List Word) (h : Nat) :
    haltsAt p h = true ↔ (∃ w, p[h]? = some w ∧ (decodeFields w).opcode = 0) ∧
      ∀ w ∈ p.take h, legalBeforeHalt w = true := by
  simp [haltsAt, Option.any_eq_true]

theorem runSteps_running_of_haltsAt {c : Config} {h : Nat} (hh : haltsAt c.program h = true) {k : Nat} (hk : k ≤ h) :
    (runSteps k (State.construct c)).loopState = .running := by
  obtain ⟨⟨w, hw, -⟩, hlegal⟩ := (haltsAt_iff _ _).1 hh
  obtain ⟨hlt, -⟩ := List.getElem?_eq_some_iff.1 hw
  induction k with
  | zero => rfl
  | succ k ih =>
    have hl := ih (by omega)
    have hread := (memRead_runSteps_construct hl).trans (List.getElem?_eq_getElem (by omega))
    have hmem : c.program[k] ∈ c.program.take h := List.mem_take_iff_getElem.2 ⟨k, by omega, rfl⟩
    obtain ⟨t, e, ht⟩ := step_of_legalBeforeHalt hl hread (hlegal _ hmem)
    rw [runSteps_succ_last, State.after_of_next e]
    exact ht

/-! ### The obligations -/

/-- Settles O38: the values construction gives, and the default configuration written out. -/
theorem resetValues : Obligations.ResetValues :=
  ⟨fun c => ⟨fun r => State.readReg_construct r c, rfl, rfl, rfl, rfl, rfl⟩, fun _ => rfl, rfl⟩

/-- Settles O39: a reset depends on the configuration alone, which no run changes. -/
theorem reinitializationRestartsTheRun : Obligations.ReinitializationRestartsTheRun :=
  fun c n => congrArg State.construct (runSteps_config n (State.construct c))

/-- Settles O40: every round of a machine not yet stopped uses up a word, and past the last one there is the fault. -/
theorem everyRunEnds : Obligations.EveryRunEnds := by
  refine ⟨runSteps_stopped, fun c => ?_, fun c h => ?_⟩
  · have hs := endOfRun_stopped c
    have hf := endOfRun_fault_of_halted c
    cases hr : (endOfRun c).running with
    | false => exact .inl ⟨hr, hf hr⟩
    | true => exact .inr ⟨hr, by simpa [State.stopped, hr] using hs⟩
  · have hl := State.not_stopped_iff.1 h
    have hn := (memRead_runSteps_construct hl).trans (List.getElem?_eq_none le_rfl)
    have e : endOfRun c = (runSteps c.program.length (State.construct c)).raise .programOutOfBounds :=
      (runSteps_succ_last _ _).trans (State.after_of_next (step_of_memRead_eq_none hl hn))
    rw [e]
    exact ⟨rfl, ((State.loopState_running_iff _).1 hl).1, (runSteps_construct_pc c _).1 hl⟩

/-- Settles O41: the words before the `halt` keep the machine Running, so after `h` steps it is at the `halt`. -/
theorem wellFormedProgramHalts : Obligations.WellFormedProgramHalts := by
  intro c h hh
  obtain ⟨⟨w, hw, hop⟩, -⟩ := (haltsAt_iff _ _).1 hh
  obtain ⟨hlt, -⟩ := List.getElem?_eq_some_iff.1 hw
  have hl := runSteps_running_of_haltsAt hh le_rfl
  have hpc := (runSteps_construct_pc c h).1 hl
  have hread := (memRead_runSteps_construct hl).trans hw
  have e : runSteps (h + 1) (State.construct c) = (runSteps h (State.construct c)).advancePc.clearRunning :=
    (runSteps_succ_last _ _).trans (State.after_of_next (step_of_opcode_eq_zero hl hread hop))
  have hend : endOfRun c = runSteps (c.length - h) (runSteps (h + 1) (State.construct c)) := by
    rw [endOfRun, ← runSteps_add]
    congr 1
    simp only [Config.length]; omega
  refine ⟨fun k hk => runSteps_running_of_haltsAt hh hk, ?_⟩
  rw [hend, e]
  exact ⟨rfl, congrArg (· + 1) hpc, ((State.loopState_running_iff _).1 hl).2, runSteps_of_stopped rfl _⟩

/-- Settles O42: every round of a Running machine either advances the counter by 1 or stops it at L. -/
theorem counterCountsIterations : Obligations.CounterCountsIterations := runSteps_construct_pc

/-- Settles O43: a step keeps the invariant, so the counter after it is at most L and below 2^PCW. -/
theorem anyCounterWidthHoldsThePc : Obligations.AnyCounterWidthHoldsThePc := by
  intro s t pcw hinv hL h
  obtain ⟨-, -, hle, -⟩ := stepKeepsTheInvariant s t hinv h
  rw [step_config h, Config.length] at hle
  have hpos : 0 < 2 ^ pcw := by positivity
  refine ⟨by rw [BitVec.toNat_ofNat, Nat.mod_eq_of_lt (by omega)], fun hlt => ?_⟩
  have hpc : t.pc = s.pc + 1 := (step_pc h).trans (if_pos hlt)
  rw [hpc, BitVec.ofNat_add]
  rfl

end Sys2Proof.Machine
end

section
/-! PROOFS. The trace and the clocked rendering (50_interfaces.md sections 2 and 4). -/

namespace Sys2Proof.Machine

section Iteration

variable {s t : State}

/-! ### The lines of one iteration -/

theorem iterationLines_of_next {w : Word} (hw : s.memRead s.pc = some w) (h : step s = .next t) :
    iterationLines s = if t.fault = .none then [description (decode w), snapshot t] else [] := by
  simp only [iterationLines, hw, h]

theorem iterationLines_of_memRead_eq_none (hn : s.memRead s.pc = none) : iterationLines s = [] := by
  simp only [iterationLines, hn]

theorem iterationLines_of_stopped (hs : s.stopped = true) : iterationLines s = [] := by
  unfold iterationLines
  split
  · next h => exact absurd h (step_ne_next_of_stopped hs)
  · rfl

/-- The lines of `n` iterations are those of each state the run goes through, in order. -/
theorem linesOf_eq_flatMap (n : Nat) (s : State) :
    linesOf n s = (List.range n).flatMap fun k => iterationLines (runSteps k s) := by
  induction n generalizing s with
  | zero => rfl
  | succ n ih => rw [linesOf, ih, List.range_succ_eq_map, List.flatMap_cons, List.flatMap_map]; rfl

/-! ### The number of lines (R145) -/

/-- The number of fault-free iterations behind a state of a run (R145): the counter, less the one that faulted after
its fetch. -/
def State.completedIterations (s : State) : Nat :=
  if s.fault = .none ∨ s.fault = .programOutOfBounds then s.pc else s.pc - 1

/-- An iteration emits two lines when it is one more completed iteration, and none otherwise. -/
theorem iterationLines_length (s : State) :
    (iterationLines s).length + 2 * s.completedIterations = 2 * (s.after (step s)).completedIterations := by
  obtain ⟨hs, e⟩ | ⟨hl, w, t, hw, -, he, e, hpc⟩ | ⟨hl, hn, -, e⟩ := after_step_cases s
  · rw [iterationLines_of_stopped hs, e, List.length_nil, Nat.zero_add]
  · obtain ⟨-, hf⟩ := s.loopState_running_iff.1 hl
    rw [iterationLines_of_next hw e, State.after_of_next e]
    obtain ht | ht | ht := exec_fault he
    · simp [State.completedIterations, ht, hf, hpc]
      omega
    · simp [State.completedIterations, ht, hf, hpc]
    · simp [State.completedIterations, ht, hf, hpc]
  · obtain ⟨-, hf⟩ := s.loopState_running_iff.1 hl
    rw [iterationLines_of_memRead_eq_none hn, State.after_of_next e]
    simp [State.completedIterations, hf]

theorem linesOf_length (n : Nat) (s : State) :
    (linesOf n s).length + 2 * s.completedIterations = 2 * (runSteps n s).completedIterations := by
  induction n generalizing s with
  | zero => rw [linesOf, runSteps, List.length_nil, Nat.zero_add]
  | succ n ih => rw [linesOf, runSteps, List.length_append, ← ih, ← iterationLines_length]; omega

/-! ### One clock edge (R131) -/

/-- An edge without reset is one round of the loop, when the ROM shows the addressed word. -/
theorem clockEdge_eq_after_step {i : InPorts} (hrom : romAnswers s i) (hi : i.rst = false) :
    s.clockEdge i = s.after (step s) := by
  obtain ⟨hs, e⟩ | ⟨hl, w, t, hw, hlt, he, e, -⟩ | ⟨hl, hn, hge, e⟩ := after_step_cases s
  · simp [State.clockEdge, hi, hs, e]
  · have hlt' : s.pc < s.config.length := hlt
    rw [State.after_of_next e]
    simp [State.clockEdge, hi, State.not_stopped_iff.2 hl, hlt', hrom w hw, he, State.after]
  · have hge' : ¬ s.pc < s.config.length := Nat.not_lt.2 hge
    rw [State.after_of_next e]
    simp [State.clockEdge, hi, State.not_stopped_iff.2 hl, hge']

end Iteration

/-! ### The obligations -/

/-- Settles O45: the trace by its definition, the lines of a run by the states it goes through. -/
theorem traceDescribesThenSnapshots : Obligations.TraceDescribesThenSnapshots := by
  refine ⟨fun _ => rfl, fun _ => rfl, fun _ _ => rfl, fun c n => ?_, fun _ _ _ => iterationLines_of_next, fun s h => ?_⟩
  · rw [linesOf_eq_flatMap]
    rfl
  · obtain hs | hn := h
    · exact iterationLines_of_stopped hs
    · exact iterationLines_of_memRead_eq_none hn

/-- Settles O46: the count is 0 at construction, and every iteration adds to the lines what it adds to the count. -/
theorem traceLineCount : Obligations.TraceLineCount := by
  intro c
  have h := linesOf_length (c.length + 1) (State.construct c)
  have h0 : (State.construct c).completedIterations = 0 := rfl
  rw [h0] at h
  change (trace c).length = 1 + 2 * (endOfRun c).completedIterations
  rw [trace, List.length_cons, endOfRun]
  omega

/-- Settles O47: an edge without reset is the round of the loop, and `retire` tells whether it was a fault-free step. -/
theorem clockedMachineRefinesTheStep : Obligations.ClockedMachineRefinesTheStep := by
  refine ⟨fun _ _ => clockEdge_eq_after_step, fun s i hi => if_pos hi, fun s i hrom => ?_⟩
  cases hi : i.rst with
  | true => simp [State.retire, hi]
  | false =>
    rw [State.retire, clockEdge_eq_after_step hrom hi]
    obtain ⟨hs, e⟩ | ⟨hl, w, t, hw, hlt, he, e, -⟩ | ⟨hl, hn, hge, e⟩ := after_step_cases s
    · simp [hs, step_ne_next_of_stopped hs]
    · have hlt' : s.pc < s.config.length := hlt
      rw [State.after_of_next e, e]
      simp [hi, State.not_stopped_iff.2 hl, hlt, hlt']
    · simp [Config.length, Nat.not_lt.2 hge]

end Sys2Proof.Machine
end
